-- ==== Sys2Proof/Word.lean ====
section
/-!
DEFINITION. The value domain of spec/00_scope.md R8 and R9: unsigned words of 32 bits, bytes, 64-bit lengths,
16-bit operation words, and the eight-element arrays H and WV (spec/10_state.md R27, R28).
-/

namespace Sys2Proof

/-- Word32 of spec/00_scope.md R9: bit 0 is the least significant bit, no value is signed. -/
abbrev Word := BitVec 32

/-- Byte of spec/00_scope.md R9. -/
abbrev Byte := BitVec 8

/-- U64 of spec/00_scope.md R9: input lengths, padded lengths, the bit-length field. -/
abbrev U64 := BitVec 64

/-- A micro-operation word or a host command word, 16 bits (spec/30_encoding.md R80, R86). -/
abbrev OpWord := BitVec 16

/-- An array of eight elements, index 0 to 7: H[0..7], IV[0..7], and WV[0..7] = a..h
(spec/10_state.md R27, R28, R30). -/
structure Words8 (α : Type) where
  w0 : α
  w1 : α
  w2 : α
  w3 : α
  w4 : α
  w5 : α
  w6 : α
  w7 : α
  deriving DecidableEq, Repr

end Sys2Proof
end

