-- ==== Sys2Proof/Machine/Rom.lean ====
section
/-!
DEFINITION. The constant tables K and IV (spec/10_state.md R29, R30; spec/43_compression.md R170, R172): read-only,
not changed by reset, shared by all engine instances (log 16).
-/

namespace Sys2Proof.Machine

/-- Element j of an eight-element array. -/
def words8Get {α : Type} (v : Words8 α) (j : BitVec 3) : α :=
  match j.toNat with
  | 0 => v.w0
  | 1 => v.w1
  | 2 => v.w2
  | 3 => v.w3
  | 4 => v.w4
  | 5 => v.w5
  | 6 => v.w6
  | _ => v.w7

/-- Row r of the table of spec/43_compression.md R170: K[8r] in column 0 up to K[8r+7] in column 7. Rows are numbered
0 to 7. -/
def kRow (r : Nat) : Words8 Word :=
  match r with
  | 0 =>
    { w0 := 0x428a2f98, w1 := 0x71374491, w2 := 0xb5c0fbcf, w3 := 0xe9b5dba5
      w4 := 0x3956c25b, w5 := 0x59f111f1, w6 := 0x923f82a4, w7 := 0xab1c5ed5 }
  | 1 =>
    { w0 := 0xd807aa98, w1 := 0x12835b01, w2 := 0x243185be, w3 := 0x550c7dc3
      w4 := 0x72be5d74, w5 := 0x80deb1fe, w6 := 0x9bdc06a7, w7 := 0xc19bf174 }
  | 2 =>
    { w0 := 0xe49b69c1, w1 := 0xefbe4786, w2 := 0x0fc19dc6, w3 := 0x240ca1cc
      w4 := 0x2de92c6f, w5 := 0x4a7484aa, w6 := 0x5cb0a9dc, w7 := 0x76f988da }
  | 3 =>
    { w0 := 0x983e5152, w1 := 0xa831c66d, w2 := 0xb00327c8, w3 := 0xbf597fc7
      w4 := 0xc6e00bf3, w5 := 0xd5a79147, w6 := 0x06ca6351, w7 := 0x14292967 }
  | 4 =>
    { w0 := 0x27b70a85, w1 := 0x2e1b2138, w2 := 0x4d2c6dfc, w3 := 0x53380d13
      w4 := 0x650a7354, w5 := 0x766a0abb, w6 := 0x81c2c92e, w7 := 0x92722c85 }
  | 5 =>
    { w0 := 0xa2bfe8a1, w1 := 0xa81a664b, w2 := 0xc24b8b70, w3 := 0xc76c51a3
      w4 := 0xd192e819, w5 := 0xd6990624, w6 := 0xf40e3585, w7 := 0x106aa070 }
  | 6 =>
    { w0 := 0x19a4c116, w1 := 0x1e376c08, w2 := 0x2748774c, w3 := 0x34b0bcb5
      w4 := 0x391c0cb3, w5 := 0x4ed8aa4a, w6 := 0x5b9cca4f, w7 := 0x682e6ff3 }
  | _ =>
    { w0 := 0x748f82ee, w1 := 0x78a5636f, w2 := 0x84c87814, w3 := 0x8cc70208
      w4 := 0x90befffa, w5 := 0xa4506ceb, w6 := 0xbef9a3f7, w7 := 0xc67178f2 }

/-- K[i], 0 ≤ i ≤ 63 (spec/10_state.md R29): row i div 8, column i mod 8. -/
def romK (i : Nat) : Word := words8Get (kRow (i / 8)) (BitVec.ofNat 3 i)

/-- IV[0..7] (spec/10_state.md R30). -/
def romIV : Words8 Word :=
  ⟨0x6a09e667, 0xbb67ae85, 0x3c6ef372, 0xa54ff53a, 0x510e527f, 0x9b05688c, 0x1f83d9ab, 0x5be0cd19⟩

end Sys2Proof.Machine
end

