-- ==== Sys2Proof/Machine/Datapath.lean ====
section
/-!
DEFINITION. The combinational functions of spec/40_datapath.md, and the two whole-array functions the compression
mixer builds from them (spec/43_compression.md R174, R175). None writes a flag: the engine has none
(spec/10_state.md R32).
-/

namespace Sys2Proof.Machine

/-- 32-bit right rotation, 1 ≤ n ≤ 31; no other amount has a meaning (spec/40_datapath.md R100; log 20). -/
def rotr (x : Word) (n : Nat) (_amount : 1 ≤ n ∧ n ≤ 31 := by decide) : Word := (x >>> n) ||| (x <<< (32 - n))

/-- 32-bit logical right shift, 1 ≤ n ≤ 31 (R101; log 20). -/
def shr (x : Word) (n : Nat) (_amount : 1 ≤ n ∧ n ≤ 31 := by decide) : Word := x >>> n

/-- Addition modulo 2^32; the carry is discarded (R102). -/
def add32 (x y : Word) : Word := x + y

/-- Choose (R106), over `&` (R103), `^` (R104) and `~` (R105). -/
def ch (x y z : Word) : Word := (x &&& y) ^^^ (~~~x &&& z)

/-- Majority (R107). -/
def maj (x y z : Word) : Word := (x &&& y) ^^^ (x &&& z) ^^^ (y &&& z)

/-- Upper-case sigma 0 (R108). -/
def bigSigma0 (x : Word) : Word := rotr x 2 ^^^ rotr x 13 ^^^ rotr x 22

/-- Upper-case sigma 1 (R109). -/
def bigSigma1 (x : Word) : Word := rotr x 6 ^^^ rotr x 11 ^^^ rotr x 25

/-- Lower-case sigma 0 (R110); the third term is a shift. -/
def smallSigma0 (x : Word) : Word := rotr x 7 ^^^ rotr x 18 ^^^ shr x 3

/-- Lower-case sigma 1 (R111); the third term is a shift. -/
def smallSigma1 (x : Word) : Word := rotr x 17 ^^^ rotr x 19 ^^^ shr x 10

/-- The word that SCHED computes from W[i-2], W[i-7], W[i-15], W[i-16] (spec/42_schedule.md R160). -/
def schedWord (wm2 wm7 wm15 wm16 : Word) : Word :=
  add32 (add32 (add32 (smallSigma1 wm2) wm7) (smallSigma0 wm15)) wm16

/-- T1 of spec/43_compression.md R174, from a..h, K[i] and W[i]. -/
def roundT1 (v : Words8 Word) (k w : Word) : Word :=
  add32 (add32 (add32 (add32 v.w7 (bigSigma1 v.w4)) (ch v.w4 v.w5 v.w6)) k) w

/-- T2 of spec/43_compression.md R174. -/
def roundT2 (v : Words8 Word) : Word := add32 (bigSigma0 v.w0) (maj v.w0 v.w1 v.w2)

/-- The new a..h of one round, all from the old a..h (spec/43_compression.md R174, spec/70_reset_and_hazards.md R277). -/
def roundWords (v : Words8 Word) (k w : Word) : Words8 Word :=
  ⟨add32 (roundT1 v k w) (roundT2 v), v.w0, v.w1, v.w2, add32 v.w3 (roundT1 v k w), v.w4, v.w5, v.w6⟩

/-- The component-wise sum of two arrays of eight words (spec/43_compression.md R175); no carry passes between words. -/
def addWords (x y : Words8 Word) : Words8 Word :=
  ⟨add32 x.w0 y.w0, add32 x.w1 y.w1, add32 x.w2 y.w2, add32 x.w3 y.w3,
    add32 x.w4 y.w4, add32 x.w5 y.w5, add32 x.w6 y.w6, add32 x.w7 y.w7⟩

end Sys2Proof.Machine
end

