-- ==== Sys2Proof/Syntax.lean ====
section
/-!
DEFINITION. The instructions: one constructor per row of spec/opcode_table.json, the eleven micro-operations
(spec/30_encoding.md R82) and the four host commands (R87).
-/

namespace Sys2Proof

/-- One operation with its operands. The only operand inside a word is the 6-bit index of SCHED and ROUND and the
3-bit word number of READ_DIGEST; HASH's 64-bit length travels beside the word (spec/30_encoding.md R81, R86, R91). -/
inductive Instr where
  | padTerm
  | padAlign
  | padAlloc
  | padPack
  | padLen
  | loadIv
  | sched (i : BitVec 6)
  | initWork
  | round (i : BitVec 6)
  | addState
  | finish
  | hash (len : U64)
  | readStatus
  | readDigest (j : BitVec 3)
  | reset
  deriving DecidableEq, Repr

end Sys2Proof
end

