-- ==== Sys2Proof/WellFormed.lean ====
section
/-!
DEFINITION. Which instructions have a legal word (the constraint columns of spec/30_encoding.md R82 and R87).
-/

namespace Sys2Proof

/-- The index constraints. SCHED needs 16 ≤ IDX (R82, R83 c); every other constraint (IDX = 0, j ≤ 7, IDX ≤ 63) is
held by the constructor's own type. -/
def Instr.wellFormed : Instr → Bool
  | .padTerm => true
  | .padAlign => true
  | .padAlloc => true
  | .padPack => true
  | .padLen => true
  | .loadIv => true
  | .sched i => decide (16 ≤ i.toNat)
  | .initWork => true
  | .round _ => true
  | .addState => true
  | .finish => true
  | .hash _ => true
  | .readStatus => true
  | .readDigest _ => true
  | .reset => true

end Sys2Proof
end

