-- ==== Sys2Proof/Decode.lean ====
section
/-!
DEFINITION. Decoding of micro-operation words (spec/30_encoding.md R82 to R85) and of host command words
(R86 to R88), total on every 16-bit word and rejecting by name; then the encoder, written from the same tables.
-/

namespace Sys2Proof

/-- Why a word spells no operation (spec/30_encoding.md R83, R88). -/
inductive DecodeError where
  /-- Bits 15:14 are not 00 (R83 a, R88). -/
  | reservedBits
  /-- Bits 7:0 are in no row of the format's table (R83 b, R88). -/
  | unknownCode
  /-- The row exists but bits 13:8 break its constraint (R83 c and d, R88). -/
  | indexOutOfRange
  deriving DecidableEq, Repr

/-- Bits 7:0, OPC or CMD (R80, R86). -/
def codeField (w : OpWord) : BitVec 8 := w.extractLsb' 0 8

/-- Bits 13:8, IDX or ARG (R80, R86). -/
def indexField (w : OpWord) : BitVec 6 := w.extractLsb' 8 6

/-- Bits 15:14, RSV (R80, R86). -/
def reservedField (w : OpWord) : BitVec 2 := w.extractLsb' 14 2

/-- A row of the tables of R82 and R87: a word selects it when `word & mask = match` and the constraint holds on the
index field. `build` gives the operation from the index field and from the operand beside the word. -/
structure TableRow where
  mask : OpWord
  pattern : OpWord
  indexOk : BitVec 6 → Bool
  build : BitVec 6 → U64 → Instr

/-- The constraint "IDX = 0" or "ARG = 0". -/
def indexIsZero (i : BitVec 6) : Bool := i == 0#6

/-- The micro-operation map of R82, in its order. -/
def mopRows : List TableRow :=
  [ ⟨0xFFFF#16, 0x0010#16, indexIsZero, fun _ _ => .padTerm⟩,
    ⟨0xFFFF#16, 0x0011#16, indexIsZero, fun _ _ => .padAlign⟩,
    ⟨0xFFFF#16, 0x0012#16, indexIsZero, fun _ _ => .padAlloc⟩,
    ⟨0xFFFF#16, 0x0013#16, indexIsZero, fun _ _ => .padPack⟩,
    ⟨0xFFFF#16, 0x0014#16, indexIsZero, fun _ _ => .padLen⟩,
    ⟨0xFFFF#16, 0x0020#16, indexIsZero, fun _ _ => .loadIv⟩,
    ⟨0xC0FF#16, 0x0030#16, fun i => decide (16 ≤ i.toNat), fun i _ => .sched i⟩,
    ⟨0xFFFF#16, 0x0040#16, indexIsZero, fun _ _ => .initWork⟩,
    ⟨0xC0FF#16, 0x0041#16, fun _ => true, fun i _ => .round i⟩,
    ⟨0xFFFF#16, 0x0042#16, indexIsZero, fun _ _ => .addState⟩,
    ⟨0xFFFF#16, 0x0050#16, indexIsZero, fun _ _ => .finish⟩ ]

/-- The host command map of R87, in its order. -/
def hostRows : List TableRow :=
  [ ⟨0xFFFF#16, 0x0001#16, indexIsZero, fun _ len => .hash len⟩,
    ⟨0xFFFF#16, 0x0002#16, indexIsZero, fun _ _ => .readStatus⟩,
    ⟨0xF8FF#16, 0x0003#16, fun i => decide (i.toNat ≤ 7), fun i _ => .readDigest (i.extractLsb' 0 3)⟩,
    ⟨0xFFFF#16, 0x000F#16, indexIsZero, fun _ _ => .reset⟩ ]

/-- Does the word select the row (R82, R87)? -/
def TableRow.selects (r : TableRow) (w : OpWord) : Bool :=
  (w &&& r.mask == r.pattern) && r.indexOk (indexField w)

/-- The decode procedure of R85 over one table: reserved bits first, then the rows. -/
def decodeWith (rows : List TableRow) (w : OpWord) (operand : U64) : Except DecodeError Instr :=
  if reservedField w ≠ 0#2 then .error .reservedBits
  else
    match rows.find? (fun r => r.selects w) with
    | some r => .ok (r.build (indexField w) operand)
    | none =>
      if rows.any (fun r => codeField r.pattern == codeField w) then .error .indexOutOfRange
      else .error .unknownCode

/-- Decode the word MOP holds (R85). A micro-operation has no operand beside its word (R81). -/
def decodeMop (w : OpWord) : Except DecodeError Instr := decodeWith mopRows w 0#64

/-- Decode a host command word; `operand` is the 64-bit L that travels with HASH (R86). -/
def decodeHostCommand (w : OpWord) (operand : U64) : Except DecodeError Instr := decodeWith hostRows w operand

/-- The instruction in a row of spec/opcode_table.json, whose formats share no word (log 22): the low 16 bits are the
word, the bits above it are HASH's operand. -/
def decodeTableWord (nbits w : Nat) : Option Instr :=
  let bits := w % 2 ^ nbits
  let word := BitVec.ofNat 16 bits
  match decodeMop word with
  | .ok i => some i
  | .error _ =>
    match decodeHostCommand word (BitVec.ofNat 64 (bits / 2 ^ 16)) with
    | .ok i => some i
    | .error _ => none

/-- A word from its fields, RSV = 00 (R80, R86). -/
def wordOf (idx : BitVec 6) (code : BitVec 8) : OpWord := 0#2 ++ idx ++ code

/-- The word of an instruction (R82, R87). -/
def encode : Instr → OpWord
  | .padTerm => wordOf 0 0x10
  | .padAlign => wordOf 0 0x11
  | .padAlloc => wordOf 0 0x12
  | .padPack => wordOf 0 0x13
  | .padLen => wordOf 0 0x14
  | .loadIv => wordOf 0 0x20
  | .sched i => wordOf i 0x30
  | .initWork => wordOf 0 0x40
  | .round i => wordOf i 0x41
  | .addState => wordOf 0 0x42
  | .finish => wordOf 0 0x50
  | .hash _ => wordOf 0 0x01
  | .readStatus => wordOf 0 0x02
  | .readDigest j => wordOf (0#3 ++ j) 0x03
  | .reset => wordOf 0 0x0F

/-- The operand that travels beside the word: HASH's L, nothing for the others (R86). -/
def encodeOperand : Instr → U64
  | .padTerm => 0
  | .padAlign => 0
  | .padAlloc => 0
  | .padPack => 0
  | .padLen => 0
  | .loadIv => 0
  | .sched _ => 0
  | .initWork => 0
  | .round _ => 0
  | .addState => 0
  | .finish => 0
  | .hash len => len
  | .readStatus => 0
  | .readDigest _ => 0
  | .reset => 0

/-- The format of an instruction: true for MOP (R82), false for HCMD (R87). -/
def isMicroOp : Instr → Bool
  | .padTerm => true
  | .padAlign => true
  | .padAlloc => true
  | .padPack => true
  | .padLen => true
  | .loadIv => true
  | .sched _ => true
  | .initWork => true
  | .round _ => true
  | .addState => true
  | .finish => true
  | .hash _ => false
  | .readStatus => false
  | .readDigest _ => false
  | .reset => false

end Sys2Proof
end

