-- ==== Sys2Proof/Config.lean ====
section
/-!
DEFINITION. The parameters that no source fixes (spec/00_scope.md R7, spec/92_eei_decisions.md D6, D7, D9).
-/

namespace Sys2Proof

/-- The OPEN parameters a model takes as arguments (spec/00_scope.md R7). BLK_WIDTH is left unbounded, as R7
allows (log 13); PLATFORM_MAP is used by no rule (log 15). -/
structure Config where
  /-- MAX_INPUT_BYTES, 0 to 2^61 - 1 by its width (R7, spec/92_eei_decisions.md D6). -/
  maxInputBytes : BitVec 61
  /-- MAX_BLOCKS, at least 1 (R7, spec/92_eei_decisions.md D7): `Config.Ok`. -/
  maxBlocks : Nat
  /-- N_ENGINES, at least 1 (R7, spec/92_eei_decisions.md D9): `Config.Ok`. The number of instances of a `Platform`;
  one instance's steps do not depend on it (log 14). -/
  nEngines : Nat
  deriving DecidableEq, Repr

/-- The constraints of spec/00_scope.md R7 that the types do not already hold: MAX_BLOCKS ≥ 1 and N_ENGINES ≥ 1. -/
abbrev Config.Ok (c : Config) : Prop := 1 ≤ c.maxBlocks ∧ 1 ≤ c.nEngines

/-- MAX_INPUT_BYTES of the machine after power-on. No value is known: OPEN (log 12). -/
opaque Config.openMaxInputBytes : BitVec 61

/-- MAX_BLOCKS - 1 of the machine after power-on. No value is known: OPEN (log 12). -/
opaque Config.openSpareBlocks : Nat

/-- N_ENGINES - 1 of the platform after power-on. No value is known: OPEN (log 12). -/
opaque Config.openSpareEngines : Nat

/-- The parameters of the machine after power-on: open values inside the constraints of R7 (log 12). -/
def Config.chip : Config :=
  { maxInputBytes := Config.openMaxInputBytes
    maxBlocks := Config.openSpareBlocks + 1
    nEngines := Config.openSpareEngines + 1 }

end Sys2Proof
end

