-- ==== Sys2Proof/Machine/State.lean ====
section
/-!
DEFINITION. The state of one engine instance, the input space, the host's turns to come, and the state after
power-on (spec/10_state.md, spec/20_memory.md R50, spec/70_reset_and_hazards.md R270, R271).
-/

namespace Sys2Proof.Machine

/-- PHASE (spec/10_state.md R20). -/
inductive Phase where
  | idle
  | busy
  | done
  | fault
  deriving DecidableEq, Repr

/-- FAULT_CODE (spec/10_state.md R21). The reserved values 5, 6 and 7 are never written. -/
inductive FaultCode where
  | none
  | lengthOverflow
  | resourceExhausted
  | unwrittenRead
  | illegalMicroOp
  deriving DecidableEq, Repr

/-- One block of the block array: 64 words, each with a value or with none (spec/10_state.md R26, R39). -/
abbrev Block := Vector (Option Word) 64

/-- The bytes of the input space that differ from what an unlisted address reads as, addresses strictly rising
(spec/20_memory.md R50; `memRead`, `memWf` in Machine/Ops.lean). -/
abbrev Memory := List Host.Cell

/-- What the host can do in one turn (spec/44_host_and_sequencer.md R200). -/
inductive HostAction where
  /-- Issue a command word, with the 64-bit operand that travels beside it (spec/30_encoding.md R86). -/
  | command (word : OpWord) (operand : U64)
  /-- `IN[k] := v` (spec/44_host_and_sequencer.md R205). -/
  | writeIn (k : U64) (v : Byte)
  deriving DecidableEq, Repr

/-- One turn of the interleaving of host and engine (spec/92_eei_decisions.md D29; log 5). -/
inductive Turn where
  | engine
  | host (a : HostAction)
  deriving DecidableEq, Repr

/-- The refusals of spec/60_exceptions.md R250. -/
inductive HostRefusal where
  | hashNotAccepted
  | digestNotReady
  | inputWriteWhileBusy
  | illegalHostCommand
  deriving DecidableEq, Repr

/-- What the last host action handed back (log 7): a returned word (spec/44_host_and_sequencer.md R202, R203), which
refusal it met (spec/60_exceptions.md R250), or nothing. -/
inductive Reply where
  | nothing
  | word (w : Word)
  | refused (r : HostRefusal)
  deriving DecidableEq, Repr

/-- The machine. `none` in an element of the engine is the spec's "no value" (spec/10_state.md R37, R39; log 1). -/
structure State where
  /-- MAX_INPUT_BYTES, MAX_BLOCKS and N_ENGINES (spec/00_scope.md R7); no step changes them. -/
  cfg : Config
  /-- PHASE (spec/10_state.md R20). -/
  phase : Phase
  /-- FAULT_CODE (R21). -/
  faultCode : FaultCode
  /-- INLEN, the input length L in bytes (R23). -/
  inlen : Option U64
  /-- PLEN, the length of the padded stream (R24). -/
  plen : Option U64
  /-- NBLK, the block count (R25); unbounded (log 13). -/
  nblk : Option Nat
  /-- BLOCKS, the block array; `none` when it is not allocated (R26). -/
  blocks : Option (List Block)
  /-- H[0..7], the Digest State (R27). -/
  h : Words8 (Option Word)
  /-- WV[0..7], the working variables a..h (R28). -/
  wv : Words8 (Option Word)
  /-- MOP, the next micro-operation's word (R31). -/
  mop : Option OpWord
  /-- BLK, the index of the block being processed (R31); unbounded (log 13). -/
  blk : Option Nat
  /-- IN, the host's input space (spec/20_memory.md R50, R51). -/
  input : Memory
  /-- The REFUSED mark (spec/10_state.md R38). -/
  refused : Bool
  /-- The turns that come next; when it is empty every turn is the engine's (the model's own field, log 5). -/
  agenda : List Turn
  /-- What the last host action handed back (the model's own field, log 7). -/
  reply : Reply
  deriving DecidableEq, Repr

/-- Stops of the model: the "stuck" of spec/00_scope.md R13 (d), after which no agent has an enabled step (`stepKind`
in Machine/Run.lean; log 25). No invocation that an accepted HASH starts reaches one (spec/70_reset_and_hazards.md R278):
each guards a state for which the spec gives no effect. All are safe: the model stops where hardware would go on. -/
inductive Fault where
  /-- An access to a block that the block array does not have (spec/20_memory.md R52 gives only b < NBLK). Raised by
  PAD_PACK, PAD_LEN, SCHED and ROUND. Safe (log 3). -/
  | noSuchBlock
  /-- ADD_STATE with BLK + 1 > NBLK, for which spec/44_host_and_sequencer.md R207 has no row. Raised by ADD_STATE.
  Safe (log 4). -/
  | noSuccessor
  deriving DecidableEq, Repr

/-- Refusals of the model. The host actions the spec refuses are no refusals here: they are next states with the
REFUSED mark set (spec/60_exceptions.md R250; log 8). -/
inductive Refusal where
  /-- An instruction without a meaning in this model. Raised by no arm of `exec`. Safe. -/
  | notModelled (mnemonic : String)
  deriving DecidableEq, Repr

/-- Eight elements that hold no value (spec/10_state.md R37). -/
def noWords8 : Words8 (Option Word) := ⟨none, none, none, none, none, none, none, none⟩

/-- The machine right after power-on with given parameters: spec/10_state.md R37, spec/70_reset_and_hazards.md R270
and R271; REFUSED is initially false (R38); nothing is listed in IN (log 10) and the host has no turn to come (log 5). -/
def State.resetWith (cfg : Config) : State :=
  { cfg := cfg
    phase := .idle
    faultCode := .none
    inlen := none
    plen := none
    nblk := none
    blocks := none
    h := noWords8
    wv := noWords8
    mop := none
    blk := none
    input := []
    refused := false
    agenda := []
    reply := .nothing }

/-- The machine right after power-on; its parameters are the open ones of `Config.chip` (log 12). -/
def State.reset : State := State.resetWith Config.chip

end Sys2Proof.Machine
end

