-- ==== Sys2Proof/Machine/Ops.lean ====
section
/-!
DEFINITION. The named operations over the input space, the block array and the registers; taking a fault
(spec/60_exceptions.md R240), its only return RESET (R246, spec/70_reset_and_hazards.md R270), and refusing a host
action (R250).
-/

namespace Sys2Proof.Machine

/-- What a step of this machine gives. -/
abbrev Result := Host.Outcome State Fault Refusal

/-! The input space (spec/20_memory.md R50, R51) -/

/-- What a byte of IN that nothing has written reads as (DESIGN CHOICE, unsafe: log 10). -/
def unwrittenInByte : Byte := 0x00

/-- `MemRead(k, 1)` (spec/20_memory.md R50). -/
def memRead : Memory → Nat → Byte
  | [], _ => unwrittenInByte
  | (a, x) :: rest, k => if a = k then x else memRead rest k

/-- List address k with v, unless v is what an unlisted address reads as. -/
def memCons (k : Nat) (v : Byte) (m : Memory) : Memory := if v = unwrittenInByte then m else (k, v) :: m

/-- `MemWrite(k, 1, v)` (spec/20_memory.md R51), keeping the canonical form. -/
def memWrite : Memory → Nat → Byte → Memory
  | [], k, v => memCons k v []
  | (a, x) :: rest, k, v =>
    if k < a then memCons k v ((a, x) :: rest)
    else if k = a then memCons k v rest
    else (a, x) :: memWrite rest k v

/-- The canonical form from address `lo` on: addresses strictly rising and below 2^64, no entry equal to what an
unlisted address reads as. -/
def memWfFrom (lo : Nat) : Memory → Bool
  | [] => true
  | (a, x) :: rest => decide (lo ≤ a) && decide (a < 2 ^ 64) && decide (x ≠ unwrittenInByte) && memWfFrom (a + 1) rest

/-- The canonical form of the input space. -/
def memWf (m : Memory) : Bool := memWfFrom 0 m

/-! The block array (spec/10_state.md R26, spec/20_memory.md R52) -/

/-- A block right after PAD_ALLOC: words 0..15 zero, words 16..63 no value (spec/41_padder.md R134). -/
def freshBlock : Block := ⟨(List.replicate 16 (some (0 : Word)) ++ List.replicate 48 none).toArray, rfl⟩

/-- Word i of a block, when it exists and holds a value. -/
def blockGet (b : Block) (i : Nat) : Option Word := (b[i]?).getD none

/-- Write word i of a block. -/
def blockSet (b : Block) (i : Nat) (w : Word) : Block := b.setIfInBounds i (some w)

/-- BLOCKS[b][i], when the block exists and the word holds a value. -/
def wordAt (bs : List Block) (b i : Nat) : Option Word :=
  match bs[b]? with
  | some blk => blockGet blk i
  | none => none

/-- `BLOCKS[b][i] <- w`; `none` when the array has no block b. -/
def setWordAt (bs : List Block) (b i : Nat) (w : Word) : Option (List Block) :=
  match bs[b]? with
  | some blk => some (bs.set b (blockSet blk i w))
  | none => none

/-! Faults, refusals and reset -/

/-- Fault entry (spec/60_exceptions.md R240): nothing of the faulting micro-operation is written, the invocation's
state is given up, INLEN and everything the engine does not own stay. -/
def faultEntry (c : FaultCode) (s : State) : State :=
  { s with
    phase := .fault
    faultCode := c
    mop := none
    blk := none
    plen := none
    nblk := none
    h := noWords8
    wv := noWords8
    blocks := none }

/-- `raise Fault(code)`: the step's next state is the fault entry (spec/00_scope.md R11, spec/60_exceptions.md R240). -/
def raise (c : FaultCode) (s : State) : Result := .next (faultEntry c s)

/-- Read an element of the state: one that holds no value raises UNWRITTEN_READ (spec/10_state.md R39,
spec/60_exceptions.md R243; log 2). -/
def withValue {α : Type} (v : Option α) (s : State) (k : α → Result) : Result :=
  match v with
  | some x => k x
  | none => raise .unwrittenRead s

/-- `refuse(reason)`: no engine state changes, the REFUSED mark is set (spec/60_exceptions.md R250; log 8). -/
def refuse (r : HostRefusal) (s : State) : Result := .next { s with refused := true, reply := .refused r }

/-- The reset of spec/70_reset_and_hazards.md R270: IN, REFUSED, the parameters and the turns to come stay. -/
def resetEngine (s : State) : State :=
  { s with
    phase := .idle
    faultCode := .none
    inlen := none
    plen := none
    nblk := none
    blocks := none
    h := noWords8
    wv := noWords8
    mop := none
    blk := none }

end Sys2Proof.Machine
end

