-- ==== Sys2Proof/Machine/Operands.lean ====
section
/-!
DEFINITION. The operands of the micro-operations: reading and filling the eight-word arrays, the current block, the padded stream and the
length arithmetic of the padder (spec/30_encoding.md R81, spec/41_padder.md R131 to R136).
-/

namespace Sys2Proof.Machine

/-- An array all of whose elements hold the given values. -/
def someWords8 (v : Words8 Word) : Words8 (Option Word) :=
  ⟨some v.w0, some v.w1, some v.w2, some v.w3, some v.w4, some v.w5, some v.w6, some v.w7⟩

/-- The values of an array, when every element holds one (the "if any holds no value" of spec/43_compression.md
R173 to R175). -/
def readWords8 : Words8 (Option Word) → Option (Words8 Word)
  | ⟨some a, some b, some c, some d, some e, some f, some g, some h⟩ => some ⟨a, b, c, d, e, f, g, h⟩
  | _ => none

/-- The block array and its block BLK: BLK or BLOCKS without a value raises UNWRITTEN_READ, a block that the array
does not have stops the model (log 3). -/
def withCurrentBlock (s : State) (k : Nat → List Block → Block → Result) : Result :=
  withValue s.blk s fun b =>
    withValue s.blocks s fun bs =>
      match bs[b]? with
      | some cur => k b bs cur
      | none => .fault .noSuchBlock

/-- The block count ceil((8 L + 65) / 512), exact (spec/41_padder.md R132). -/
def blockCount (len : Nat) : Nat := (8 * len + 65 + 511) / 512

/-- 4 * ceil(PLEN / 4) (spec/41_padder.md R131). -/
def alignedLength (p : U64) : U64 := BitVec.ofNat 64 (4 * ((p.toNat + 3) / 4))

/-- LB = 8 L, the bit length (spec/41_padder.md R136). -/
def bitLength (len : U64) : U64 := 8 * len

/-- LB[63:32]. -/
def highWord (lb : U64) : Word := lb.extractLsb' 32 32

/-- LB[31:0]. -/
def lowWord (lb : U64) : Word := lb.extractLsb' 0 32

/-- Byte k of the padded stream: input, terminator, zeros (spec/41_padder.md R133). -/
def paddedByte (input : Memory) (len k : Nat) : Byte :=
  if k < len then memRead input k else if k = len then 0x80 else 0x00

/-- Four bytes, the first the most significant (spec/20_memory.md R55). -/
def bigEndianWord (b0 b1 b2 b3 : Byte) : Word := b0 ++ b1 ++ b2 ++ b3

/-- word(j) of the padded stream (spec/20_memory.md R55, spec/41_padder.md R135). -/
def paddedWord (input : Memory) (len j : Nat) : Word :=
  bigEndianWord (paddedByte input len (4 * j)) (paddedByte input len (4 * j + 1))
    (paddedByte input len (4 * j + 2)) (paddedByte input len (4 * j + 3))

/-- The loop of PAD_PACK (spec/41_padder.md R135): words j, j+1, ... of the stream, `n` of them, each to
BLOCKS[j div 16][j mod 16]; `none` when a block is missing. -/
def packWords (input : Memory) (len : Nat) : Nat → Nat → List Block → Option (List Block)
  | 0, _, bs => some bs
  | n + 1, j, bs =>
    match setWordAt bs (j / 16) (j % 16) (paddedWord input len j) with
    | some bs' => packWords input len n (j + 1) bs'
    | none => none

end Sys2Proof.Machine
end

