-- ==== Sys2Proof/Machine/Sequencer.lean ====
section
/-!
DEFINITION. The successor function of spec/44_host_and_sequencer.md R207 and the last micro-operation, FINISH (R210).
-/

namespace Sys2Proof.Machine

/-- The rows of R207 whose successor is fixed. ADD_STATE's depends on BLK and NBLK (`execAddState`), FINISH has none,
and a host command is no micro-operation. -/
def nextOp : Instr → Option Instr
  | .padTerm => some .padAlign
  | .padAlign => some .padAlloc
  | .padAlloc => some .padPack
  | .padPack => some .padLen
  | .padLen => some .loadIv
  | .loadIv => some (.sched 16)
  | .sched i => some (if i.toNat < 63 then .sched (i + 1) else .initWork)
  | .initWork => some (.round 0)
  | .round i => some (if i.toNat < 63 then .round (i + 1) else .addState)
  | .addState => none
  | .finish => none
  | .hash _ => none
  | .readStatus => none
  | .readDigest _ => none
  | .reset => none

/-- Set MOP to a micro-operation's word (spec/10_state.md R31). -/
def goTo (i : Instr) (s : State) : State := { s with mop := some (encode i) }

/-- Set MOP to the fixed successor of the micro-operation just performed (R206, R207). -/
def advance (i : Instr) (s : State) : State := { s with mop := (nextOp i).map encode }

/-- FINISH (R210): PHASE DONE, the hidden state released, H kept as the digest, INLEN kept (spec/10_state.md R23). -/
def execFinish (s : State) : Result :=
  .next { s with
    phase := .done
    mop := none
    blk := none
    plen := none
    nblk := none
    wv := noWords8
    blocks := none }

end Sys2Proof.Machine
end

