-- ==== Sys2Proof/Machine/Compression.lean ====
section
/-!
DEFINITION. The compression mixer (spec/43_compression.md R172 to R175).
-/

namespace Sys2Proof.Machine

/-- LOAD_IV (spec/43_compression.md R172); BLK = 0 as spec/44_host_and_sequencer.md R207 says (log 18). -/
def execLoadIv (s : State) : Result :=
  .next (advance .loadIv { s with h := someWords8 romIV, blk := some 0 })

/-- INIT_WORK (spec/43_compression.md R173). -/
def execInitWork (s : State) : Result :=
  withValue (readWords8 s.h) s fun h =>
    .next (advance .initWork { s with wv := someWords8 h })

/-- ROUND i (spec/43_compression.md R174) on block BLK: every read before any write. -/
def execRound (i : BitVec 6) (s : State) : Result :=
  withCurrentBlock s fun _ _ cur =>
    withValue (blockGet cur i.toNat) s fun w =>
    withValue (readWords8 s.wv) s fun v =>
      .next (advance (.round i) { s with wv := someWords8 (roundWords v (romK i.toNat) w) })

/-- ADD_STATE (spec/43_compression.md R175), then the next block or FINISH (spec/44_host_and_sequencer.md R207). -/
def execAddState (s : State) : Result :=
  withValue (readWords8 s.h) s fun h =>
  withValue (readWords8 s.wv) s fun v =>
  withValue s.blk s fun b =>
  withValue s.nblk s fun n =>
    if b + 1 < n then
      .next (goTo (.sched 16) { s with h := someWords8 (addWords h v), blk := some (b + 1) })
    else if b + 1 = n then
      .next (goTo .finish { s with h := someWords8 (addWords h v) })
    else .fault .noSuccessor

end Sys2Proof.Machine
end

