-- ==== Sys2Proof/Machine/Flags.lean ====
section
/-!
DEFINITION. The status view. The engine has no flags and no condition codes (spec/10_state.md R32): the only status is
STATUS, computed from PHASE and FAULT_CODE at each read (R22).
-/

namespace Sys2Proof.Machine

/-- The 2 bits of PHASE (spec/10_state.md R20). -/
def phaseBits : Phase → BitVec 2
  | .idle => 0b00
  | .busy => 0b01
  | .done => 0b10
  | .fault => 0b11

/-- The 3 bits of FAULT_CODE (spec/10_state.md R21). -/
def faultCodeBits : FaultCode → BitVec 3
  | .none => 0
  | .lengthOverflow => 1
  | .resourceExhausted => 2
  | .unwrittenRead => 3
  | .illegalMicroOp => 4

/-- STATUS[1:0] = PHASE, STATUS[4:2] = FAULT_CODE, STATUS[31:5] = 0 (spec/10_state.md R22). -/
def statusWord (s : State) : Word := 0#27 ++ faultCodeBits s.faultCode ++ phaseBits s.phase

end Sys2Proof.Machine
end

