-- ==== Sys2Proof/Machine/HostCommands.lean ====
section
/-!
DEFINITION. The host's actions (spec/44_host_and_sequencer.md R200 to R205).
-/

namespace Sys2Proof.Machine

/-- HASH L (R201): accepted in IDLE and DONE; it starts a fresh invocation at PAD_TERM. -/
def execHash (len : U64) (s : State) : Result :=
  if s.phase = .busy ∨ s.phase = .fault then refuse .hashNotAccepted s
  else
    .next { s with
      inlen := some len
      plen := none
      nblk := none
      h := noWords8
      wv := noWords8
      blocks := none
      blk := some 0
      mop := some (encode .padTerm)
      phase := .busy
      reply := .nothing }

/-- READ_STATUS (R202): accepted in every phase, no side effect on the engine. -/
def execReadStatus (s : State) : Result := .next { s with reply := .word (statusWord s) }

/-- READ_DIGEST j (R203): the digest is readable in DONE only. A word that holds no value is refused as well
(spec/93_implementation_defined.md U2; log 9). -/
def execReadDigest (j : BitVec 3) (s : State) : Result :=
  if s.phase ≠ .done then refuse .digestNotReady s
  else
    match words8Get s.h j with
    | some w => .next { s with reply := .word w }
    | none => refuse .digestNotReady s

/-- RESET (R204): the reset of spec/70_reset_and_hazards.md R270, accepted in every phase. -/
def execReset (s : State) : Result := .next { resetEngine s with reply := .nothing }

/-- `IN[k] := v` (R205): refused in BUSY. -/
def hostWriteIn (k : U64) (v : Byte) (s : State) : Result :=
  if s.phase = .busy then refuse .inputWriteWhileBusy s
  else .next { s with input := memWrite s.input k.toNat v, reply := .nothing }

end Sys2Proof.Machine
end

