-- ==== Sys2Proof/Machine/Padder.lean ====
section
/-!
DEFINITION. The five padder micro-operations (spec/41_padder.md).
-/

namespace Sys2Proof.Machine

/-- PAD_TERM (spec/41_padder.md R130): the length check comes before any write. -/
def execPadTerm (s : State) : Result :=
  withValue s.inlen s fun len =>
    if s.cfg.maxInputBytes.toNat < len.toNat then raise .lengthOverflow s
    else .next (advance .padTerm { s with plen := some (len + 1) })

/-- PAD_ALIGN (spec/41_padder.md R131). -/
def execPadAlign (s : State) : Result :=
  withValue s.plen s fun p =>
    .next (advance .padAlign { s with plen := some (alignedLength p) })

/-- PAD_ALLOC (spec/41_padder.md R134): nothing is allocated when the array would exceed MAX_BLOCKS. -/
def execPadAlloc (s : State) : Result :=
  withValue s.inlen s fun len =>
    if s.cfg.maxBlocks < blockCount len.toNat then raise .resourceExhausted s
    else
      .next (advance .padAlloc
        { s with
          nblk := some (blockCount len.toNat)
          blocks := some (List.replicate (blockCount len.toNat) freshBlock) })

/-- PAD_PACK (spec/41_padder.md R135). -/
def execPadPack (s : State) : Result :=
  withValue s.inlen s fun len =>
    withValue s.plen s fun p =>
      match s.blocks with
      | none => .fault .noSuchBlock
      | some bs =>
        match packWords s.input len.toNat (p.toNat / 4) 0 bs with
        | some bs' => .next (advance .padPack { s with blocks := some bs' })
        | none => .fault .noSuchBlock

/-- BLOCKS[b][14] <- LB[63:32] and BLOCKS[b][15] <- LB[31:0] for the final block b (spec/41_padder.md R136,
spec/20_memory.md R56); `none` when there is no such block. -/
def writeLength (lb : U64) (nblk : Nat) (bs : List Block) : Option (List Block) :=
  match nblk with
  | 0 => none
  | b + 1 =>
    match setWordAt bs b 14 (highWord lb) with
    | some bs' => setWordAt bs' b 15 (lowWord lb)
    | none => none

/-- PAD_LEN (spec/41_padder.md R136). -/
def execPadLen (s : State) : Result :=
  withValue s.inlen s fun len =>
    withValue s.nblk s fun n =>
      match s.blocks with
      | none => .fault .noSuchBlock
      | some bs =>
        match writeLength (bitLength len) n bs with
        | some bs' => .next (advance .padLen { s with blocks := some bs' })
        | none => .fault .noSuchBlock

end Sys2Proof.Machine
end

