-- ==== Sys2Proof/Machine/Schedule.lean ====
section
/-!
DEFINITION. The message-schedule expander (spec/42_schedule.md).
-/

namespace Sys2Proof.Machine

/-- SCHED i (spec/42_schedule.md R160) on block BLK. An index below 16 spells no micro-operation
(spec/30_encoding.md R83 c): ILLEGAL_MICRO_OP comes before the micro-operation's own checks (spec/60_exceptions.md
R245; log 19). -/
def execSched (i : BitVec 6) (s : State) : Result :=
  if i.toNat < 16 then raise .illegalMicroOp s
  else
    withCurrentBlock s fun b bs cur =>
      withValue (blockGet cur (i.toNat - 2)) s fun wm2 =>
      withValue (blockGet cur (i.toNat - 7)) s fun wm7 =>
      withValue (blockGet cur (i.toNat - 15)) s fun wm15 =>
      withValue (blockGet cur (i.toNat - 16)) s fun wm16 =>
        .next (advance (.sched i)
          { s with blocks := some (bs.set b (blockSet cur i.toNat (schedWord wm2 wm7 wm15 wm16))) })

end Sys2Proof.Machine
end

