-- ==== Sys2Proof/Machine/Dispatch.lean ====
section
/-!
DEFINITION. The meaning of every instruction: one arm per constructor of Instr, one direct call each.
-/

namespace Sys2Proof.Machine

def exec (i : Instr) (s : State) : Host.Outcome State Fault Refusal :=
  match i with
  | .padTerm => Sys2Proof.Machine.execPadTerm s
  | .padAlign => Sys2Proof.Machine.execPadAlign s
  | .padAlloc => Sys2Proof.Machine.execPadAlloc s
  | .padPack => Sys2Proof.Machine.execPadPack s
  | .padLen => Sys2Proof.Machine.execPadLen s
  | .loadIv => Sys2Proof.Machine.execLoadIv s
  | .sched n => Sys2Proof.Machine.execSched n s
  | .initWork => Sys2Proof.Machine.execInitWork s
  | .round n => Sys2Proof.Machine.execRound n s
  | .addState => Sys2Proof.Machine.execAddState s
  | .finish => Sys2Proof.Machine.execFinish s
  | .hash len => Sys2Proof.Machine.execHash len s
  | .readStatus => Sys2Proof.Machine.execReadStatus s
  | .readDigest j => Sys2Proof.Machine.execReadDigest j s
  | .reset => Sys2Proof.Machine.execReset s

end Sys2Proof.Machine
end

