-- ==== Sys2Proof/Machine/Agents.lean ====
section
/-!
DEFINITION. The two agents' turns (spec/00_scope.md R12): the engine's step (spec/44_host_and_sequencer.md R206), the
host's actions (R200), and whose turn it is (spec/92_eei_decisions.md D29; log 5).
-/

namespace Sys2Proof.Machine

/-- The engine's turn (R206): in BUSY decode MOP and perform the micro-operation, an illegal word raising
ILLEGAL_MICRO_OP (spec/30_encoding.md R85, spec/60_exceptions.md R244); in IDLE, DONE and FAULT the engine has no step
and waits unchanged (R206, spec/60_exceptions.md R258; log 6). -/
def engineTurn (s : State) : Result :=
  if s.phase = .busy then
    withValue s.mop s fun w =>
      match decodeMop w with
      | .ok i => exec i s
      | .error _ => raise .illegalMicroOp s
  else .next s

/-- The host's turn: a command word is decoded and performed, a word that spells no command is refused
(spec/30_encoding.md R88); a byte write goes to the input space (R205). -/
def hostTurn (a : HostAction) (s : State) : Result :=
  match a with
  | .command w operand =>
    match decodeHostCommand w operand with
    | .ok i => exec i s
    | .error _ => refuse .illegalHostCommand s
  | .writeIn k v => hostWriteIn k v s

/-- The next turn of the agenda; with nothing on it the turn is the engine's (log 5). -/
def takeTurn (s : State) : Result :=
  match s.agenda with
  | [] => engineTurn s
  | .engine :: rest => engineTurn { s with agenda := rest }
  | .host a :: rest => hostTurn a { s with agenda := rest }

/-- Put an instruction's word where the next step finds it (log 17): a host command goes to the head of the agenda;
any other word goes into MOP of a BUSY engine whose turn is next. -/
def placeWord (s : State) (word : OpWord) (operand : U64) : State :=
  match decodeHostCommand word operand with
  | .ok _ => { s with agenda := .host (.command word operand) :: s.agenda }
  | .error _ => { s with phase := .busy, mop := some word, agenda := .engine :: s.agenda }

end Sys2Proof.Machine
end

