-- ==== Sys2Proof/Machine/Step.lean ====
section
/-!
DEFINITION. One step of the machine (spec/00_scope.md R12, R13), and where the host lays a word to be run next (log 17).
-/

namespace Sys2Proof.Machine

/-- One step: the next agent's turn. -/
def step (s : State) : Host.Outcome State Fault Refusal := takeTurn s

/-- `s` with the table word w (nbits bits, bit 0 the least significant bit of the word) where the next step finds it;
bits above the 16-bit word are HASH's operand. -/
def State.withFetchWord (s : State) (nbits w : Nat) : State :=
  placeWord s (BitVec.ofNat 16 (w % 2 ^ nbits)) (BitVec.ofNat 64 (w % 2 ^ nbits / 2 ^ 16))

end Sys2Proof.Machine
end

