-- ==== Sys2Proof/Machine/Digest.lean ====
section
/-!
DEFINITION. The digest as a function of the input bytes: the derived rules spec/41_padder.md R137,
spec/42_schedule.md R162, spec/43_compression.md R176, R177 and spec/44_host_and_sequencer.md R211. The machine does
not use them: claims compare the machine with them.
-/

namespace Sys2Proof.Machine

/-- The j-th message word after PAD_LEN, j = 16 b + i (spec/41_padder.md R137): the length field in the last two
words, the padded stream before them. -/
def messageWord (input : Memory) (len : U64) (j : Nat) : Word :=
  if j + 2 = 16 * blockCount len.toNat then highWord (bitLength len)
  else if j + 1 = 16 * blockCount len.toNat then lowWord (bitLength len)
  else paddedWord input len.toNat j

/-- The first n words of the schedule of the message words m (spec/42_schedule.md R162). -/
def scheduleList (m : Nat → Word) : Nat → List Word
  | 0 => []
  | n + 1 =>
    let done := scheduleList m n
    let next :=
      if n < 16 then m n
      else schedWord (done.getD (n - 2) 0) (done.getD (n - 7) 0) (done.getD (n - 15) 0) (done.getD (n - 16) 0)
    done ++ [next]

/-- Sched(m)[n] (spec/42_schedule.md R162; the recursion is `schedule_eq` in Laws/Digest.lean). -/
def schedule (m : Nat → Word) (n : Nat) : Word := (scheduleList m (n + 1)).getD n 0

/-- a..h after the first n rounds (spec/43_compression.md R174), starting from v, on the schedule w. -/
def roundsFrom (w : Nat → Word) (v : Words8 Word) : Nat → Words8 Word
  | 0 => v
  | n + 1 => roundWords (roundsFrom w v n) (romK n) (w n)

/-- Compress(s, w) (spec/43_compression.md R176). -/
def compress (s : Words8 Word) (w : Nat → Word) : Words8 Word := addWords s (roundsFrom w s 64)

/-- S(b - 1): the Digest State before block b, that is after the blocks below b (spec/43_compression.md R177). -/
def chainState (input : Memory) (len : U64) : Nat → Words8 Word
  | 0 => romIV
  | b + 1 => compress (chainState input len b) (schedule fun i => messageWord input len (16 * b + i))

/-- Digest(x) for the input x = IN[0..L-1] (spec/44_host_and_sequencer.md R211). -/
def digest (input : Memory) (len : U64) : Words8 Word := chainState input len (blockCount len.toNat)

/-- Byte 4 j + m of the digest as a byte string, most significant byte of each word first (spec/20_memory.md R58). -/
def digestByte (d : Words8 Word) (j : BitVec 3) (m : BitVec 2) : Byte :=
  (words8Get d j).extractLsb' (24 - 8 * m.toNat) 8

end Sys2Proof.Machine
end

