-- ==== Sys2Proof/Machine/Platform.lean ====
section
/-!
DEFINITION. N_ENGINES engine instances (spec/00_scope.md R7, R12; spec/60_exceptions.md R256): each instance is a
`State` of its own, and they share only the constant tables (spec/10_state.md R36). One step of a platform is one step
of one instance, in any order (spec/44_host_and_sequencer.md R214; log 14).
-/

namespace Sys2Proof.Machine

/-- The engine instances of a platform, numbered from 0 (spec/60_exceptions.md R256). -/
structure Platform where
  engines : List State
  deriving DecidableEq, Repr

/-- N_ENGINES instances right after power-on, all with the same parameters (spec/00_scope.md R7,
spec/70_reset_and_hazards.md R270, R271). -/
def Platform.powerOn (cfg : Config) : Platform := { engines := List.replicate cfg.nEngines (State.resetWith cfg) }

/-- A platform as R7 has it: N_ENGINES instances, at least one, that all have the platform's parameters. -/
def Platform.Ok (cfg : Config) (p : Platform) : Prop :=
  cfg.Ok ∧ p.engines.length = cfg.nEngines ∧ ∀ s ∈ p.engines, s.cfg = cfg

/-- One step of instance n; the others keep their state. A number that names no instance moves nothing. -/
def platformStep (n : Nat) (p : Platform) : Host.Outcome Platform Fault Refusal :=
  match p.engines[n]? with
  | none => .next p
  | some s =>
    match step s with
    | .next t => .next { p with engines := p.engines.set n t }
    | .fault f => .fault f
    | .refused r => .refused r

/-- The model-wide REFUSED mark (spec/10_state.md R38): some instance's host has been refused. -/
def platformRefused (p : Platform) : Bool := p.engines.any (fun s => s.refused)

end Sys2Proof.Machine
end

