-- ==== Sys2Proof/Machine/Run.lean ====
section
/-!
DEFINITION. The outcomes of a step (spec/00_scope.md R13), and the end of a run and its result
(spec/44_host_and_sequencer.md R220). The machine does not use them: claims are stated with them (R221).
-/

namespace Sys2Proof.Machine

/-- The four outcomes of spec/00_scope.md R13. -/
inductive StepKind where
  /-- (a) -/
  | next
  /-- (b) The engine entered FAULT with this code (spec/60_exceptions.md R240). -/
  | fault (c : FaultCode)
  /-- (c) A host action the spec refuses (spec/60_exceptions.md R250). -/
  | refusal (r : HostRefusal)
  /-- (d) No agent has an enabled step: the model's stop, a Lean fault (logs 3, 4, 25). -/
  | stuck
  deriving DecidableEq, Repr

/-- A step that answered t from s: its outcome among (a), (b) and (c). Only a host turn is refused, and it says so in
its reply (log 7). -/
def answerKind (s t : State) : StepKind :=
  match s.agenda.head?, t.reply with
  | some (.host _), .refused r => .refusal r
  | _, _ => if s.phase ≠ .fault ∧ t.phase = .fault then .fault t.faultCode else .next

/-- Which outcome of R13 the next step has. -/
def stepKind (s : State) : StepKind :=
  match step s with
  | .next t => answerKind s t
  | .fault _ => .stuck
  | .refused _ => .stuck

/-- Does the next step accept a HASH (spec/44_host_and_sequencer.md R200, R201)? -/
def acceptsHash (s : State) : Bool :=
  match s.agenda.head? with
  | some (.host (.command w operand)) => w == encode (.hash operand) && (s.phase == .idle || s.phase == .done)
  | some (.host (.writeIn _ _)) => false
  | some .engine => false
  | none => false

/-- How a run of one engine instance stands (spec/44_host_and_sequencer.md R220). -/
inductive RunResult where
  /-- No HASH has been accepted yet, or the invocation is still running. -/
  | unfinished
  /-- The run has ended in this state, whose PHASE is DONE or FAULT. -/
  | ended (t : State)
  /-- The run has no end result: a RESET abandoned it, the REFUSED mark was set, or the model stopped. -/
  | noResult
  deriving DecidableEq, Repr

/-- The run over the next n steps from s; `started` says whether its HASH has been accepted. A run goes no further
than its end: the turns after it are no part of it. -/
def runFrom (started : Bool) : Nat → State → RunResult
  | 0, _ => .unfinished
  | n + 1, s =>
    match step s with
    | .fault _ => .noResult
    | .refused _ => .noResult
    | .next t =>
      if t.refused then .noResult
      else if started then
        match t.phase with
        | .busy => runFrom true n t
        | .done => .ended t
        | .fault => .ended t
        | .idle => .noResult
      else runFrom (acceptsHash s) n t

/-- The result, after n steps, of the run that starts in s (R220). A model whose REFUSED mark is set already gives
none. -/
def runResult (n : Nat) (s : State) : RunResult := if s.refused then .noResult else runFrom false n s

/-- The result of one instance's run on a platform that has come to p: the REFUSED mark is model-wide
(spec/10_state.md R38). -/
def platformResult (p : Platform) (r : RunResult) : RunResult := if platformRefused p then .noResult else r

/-- READ_DIGEST 0..7 in t hand back the eight words d and change nothing (R221). -/
def readsDigest (t : State) (d : Words8 Word) : Prop :=
  ∀ j, exec (.readDigest j) t = .next { t with reply := .word (words8Get d j) }

end Sys2Proof.Machine
end

