-- ==== Sys2Proof/Safety.lean ====
section
/-!
DEFINITION. The terms of the claims: the invariant of the machine (spec/70_reset_and_hazards.md R278), sequences of
steps, the engine's own part of the state, and what an invocation starts from (spec/44_host_and_sequencer.md R201). The
end of a run and its result (R220) are in Machine/Run.lean.
-/

namespace Sys2Proof.Machine

/-- Every element of an array of eight holds a value. -/
def allHold (v : Words8 (Option Word)) : Prop := (readWords8 v).isSome

/-- The words of a block below index n hold values. -/
def holdsBelow (n : Nat) (b : Block) : Prop := ∀ i, i < n → (blockGet b i).isSome

/-- INLEN is L and is accepted (spec/60_exceptions.md R241). -/
def lengthAccepted (s : State) (len : U64) : Prop := s.inlen = some len ∧ len.toNat ≤ s.cfg.maxInputBytes.toNat

/-- The block array that PAD_ALLOC makes for L, its message words holding values (spec/41_padder.md R134). -/
def arrayAllocated (s : State) (len : U64) : Prop :=
  s.nblk = some (blockCount len.toNat) ∧
    ∃ bs, s.blocks = some bs ∧ bs.length = blockCount len.toNat ∧ ∀ b ∈ bs, holdsBelow 16 b

/-- Block BLK is in the array and its words below n hold values. -/
def blockReady (s : State) (n : Nat) : Prop :=
  ∃ b bs cur, s.blk = some b ∧ s.blocks = some bs ∧ bs[b]? = some cur ∧ holdsBelow n cur

/-- What holds right before a micro-operation of an invocation on L bytes (spec/70_reset_and_hazards.md R278,
spec/42_schedule.md R161). -/
def readyFor (s : State) (len : U64) : Instr → Prop
  | .padTerm => s.inlen = some len
  | .padAlign => lengthAccepted s len ∧ s.plen = some (len + 1)
  | .padAlloc => lengthAccepted s len ∧ s.plen = some (alignedLength (len + 1))
  | .padPack => lengthAccepted s len ∧ s.plen = some (alignedLength (len + 1)) ∧ arrayAllocated s len
  | .padLen => lengthAccepted s len ∧ arrayAllocated s len
  | .loadIv => lengthAccepted s len ∧ arrayAllocated s len
  | .sched i => lengthAccepted s len ∧ arrayAllocated s len ∧ allHold s.h ∧ 16 ≤ i.toNat ∧ blockReady s i.toNat
  | .initWork => lengthAccepted s len ∧ arrayAllocated s len ∧ allHold s.h ∧ blockReady s 64
  | .round _ => lengthAccepted s len ∧ arrayAllocated s len ∧ allHold s.h ∧ allHold s.wv ∧ blockReady s 64
  | .addState => lengthAccepted s len ∧ arrayAllocated s len ∧ allHold s.h ∧ allHold s.wv ∧ blockReady s 64
  | .finish => lengthAccepted s len ∧ allHold s.h
  | .hash _ => False
  | .readStatus => False
  | .readDigest _ => False
  | .reset => False

/-- No invocation's working state is held (spec/44_host_and_sequencer.md R210, spec/60_exceptions.md R240). -/
def released (s : State) : Prop :=
  s.plen = none ∧ s.nblk = none ∧ s.blocks = none ∧ s.wv = noWords8 ∧ s.mop = none ∧ s.blk = none

/-- What holds in each phase (spec/10_state.md R20 to R31). -/
def phaseHolds (s : State) : Prop :=
  match s.phase with
  | .idle => s.inlen = none ∧ s.h = noWords8 ∧ released s
  | .busy => ∃ len i, s.mop = some (encode i) ∧ s.blk.isSome ∧ readyFor s len i
  | .done => s.inlen.isSome ∧ allHold s.h ∧ released s
  | .fault => s.inlen.isSome ∧ s.h = noWords8 ∧ released s

/-- FAULT_CODE is NONE outside FAULT, and in FAULT one of the two codes an invocation can raise
(spec/10_state.md R21, spec/70_reset_and_hazards.md R278). -/
def codeHolds (s : State) : Prop :=
  if s.phase = .fault then s.faultCode = .lengthOverflow ∨ s.faultCode = .resourceExhausted
  else s.faultCode = .none

/-- The invariant of the machine. -/
structure State.Inv (s : State) : Prop where
  cfgOk : s.cfg.Ok
  memOk : memWf s.input = true
  codeOk : codeHolds s
  phaseOk : phaseHolds s

/-- n steps of the machine lead from s to t. -/
def runsTo (n : Nat) (s t : State) : Prop := Host.Core.run Sys2Proof.core n s = .next t

/-- The engine's own part of two states is the same (spec/10_state.md R36). -/
def sameEngine (s t : State) : Prop :=
  t.phase = s.phase ∧ t.faultCode = s.faultCode ∧ t.inlen = s.inlen ∧ t.plen = s.plen ∧ t.nblk = s.nblk ∧
    t.blocks = s.blocks ∧ t.h = s.h ∧ t.wv = s.wv ∧ t.mop = s.mop ∧ t.blk = s.blk

/-- What lies outside the engine's own part is the same: the parameters, the input space byte by byte, the REFUSED
mark, the turns to come, the reply. -/
def sameOutside (s t : State) : Prop :=
  t.cfg = s.cfg ∧ (∀ k, memRead t.input k = memRead s.input k) ∧ t.refused = s.refused ∧ t.agenda = s.agenda ∧
    t.reply = s.reply

/-- A state in which the host's next turn is HASH L, which the phase accepts (spec/44_host_and_sequencer.md R200), and
after which the engine has every turn. Statements over it follow the invocation (R208, R211, R215), which a REFUSED mark
from before does not change; whether the run has a result is `runResult` (R220), and other turns after HASH are in
Obligations.ObservationOfARun (R221). -/
def hashIssued (s : State) (len : U64) : Prop :=
  (s.phase = .idle ∨ s.phase = .done) ∧ s.agenda = [.host (.command 0x0001 len)]

/-- The next turn is the engine's. -/
def engineNext (s : State) : Prop := s.agenda = [] ∨ ∃ rest, s.agenda = .engine :: rest

/-- The state once its next turn has been taken off the agenda. -/
def afterTurn (s : State) : State := { s with agenda := s.agenda.tail }

/-- A word that spells no micro-operation: the four cases of spec/30_encoding.md R83, in its order. -/
def illegalMopWord (w : OpWord) : Prop :=
  reservedField w ≠ 0 ∨
    codeField w ∉ [0x10#8, 0x11#8, 0x12#8, 0x13#8, 0x14#8, 0x20#8, 0x30#8, 0x40#8, 0x41#8, 0x42#8, 0x50#8] ∨
    (codeField w = 0x30#8 ∧ (indexField w).toNat < 16) ∨
    (codeField w ∈ [0x10#8, 0x11#8, 0x12#8, 0x13#8, 0x14#8, 0x20#8, 0x40#8, 0x42#8, 0x50#8] ∧ indexField w ≠ 0)

/-- A word that spells no host command: the cases of spec/30_encoding.md R88. -/
def illegalHostWord (w : OpWord) : Prop :=
  reservedField w ≠ 0 ∨
    codeField w ∉ [0x01#8, 0x02#8, 0x03#8, 0x0F#8] ∨
    (codeField w ∈ [0x01#8, 0x02#8, 0x0F#8] ∧ indexField w ≠ 0) ∨
    (codeField w = 0x03#8 ∧ 7 < (indexField w).toNat)

/-- The phases in which a host action is accepted (spec/44_host_and_sequencer.md R200). -/
def acceptedIn (a : Instr) (p : Phase) : Prop :=
  match a with
  | .hash _ => p = .idle ∨ p = .done
  | .readStatus => True
  | .readDigest _ => p = .done
  | .reset => True
  | .padTerm => False
  | .padAlign => False
  | .padAlloc => False
  | .padPack => False
  | .padLen => False
  | .loadIv => False
  | .sched _ => False
  | .initWork => False
  | .round _ => False
  | .addState => False
  | .finish => False

/-- The state after a refused host action: nothing of the engine, the input space, the parameters or the agenda
changes, the REFUSED mark is set (spec/60_exceptions.md R250). -/
def afterRefusal (r : HostRefusal) (s : State) : State := { s with refused := true, reply := .refused r }

/-- The first 64 primes, p_0 = 2 to p_63 = 311 (spec/43_compression.md R171). -/
def firstPrimes : List Nat :=
  [ 2, 3, 5, 7, 11, 13, 17, 19, 23, 29, 31, 37, 41, 43, 47, 53, 59, 61, 67, 71, 73, 79, 83, 89, 97, 101, 103, 107, 109,
    113, 127, 131, 137, 139, 149, 151, 157, 163, 167, 173, 179, 181, 191, 193, 197, 199, 211, 223, 227, 229, 233, 239,
    241, 251, 257, 263, 269, 271, 277, 281, 283, 293, 307, 311 ]

end Sys2Proof.Machine
end

