-- ==== Sys2Proof/Certificates/Slice0/Obligations.lean ====
section
/-!
DEFINITION. The statements for the provers, from the numbered rules of spec/. A statement about every state holds in
states that no run reaches too; where it needs a premise on the state, the premise is written out.
-/

open Sys2Proof Sys2Proof.Machine

/-! Encoding (spec/30_encoding.md) -/

/-- R82, R85, R87: every word of every well-formed instruction decodes to it, at every operand value. -/
def Obligations.DecodeOfEncodeIsTheInstruction : Prop :=
  ∀ i : Instr, i.wellFormed = true →
    (isMicroOp i = true → decodeMop (encode i) = .ok i) ∧
      (isMicroOp i = false → decodeHostCommand (encode i) (encodeOperand i) = .ok i)

/-- R80, R82, R86, R87: what a word decodes to is well-formed, of the word's format, and has that word; HASH carries
its operand. So no two words mean the same instruction. -/
def Obligations.DecodedWordIsEncodedBack : Prop :=
  (∀ w i, decodeMop w = .ok i → isMicroOp i = true ∧ i.wellFormed = true ∧ encode i = w) ∧
    ∀ w operand i, decodeHostCommand w operand = .ok i →
      isMicroOp i = false ∧ i.wellFormed = true ∧ encode i = w ∧ (w = 0x0001 → i = .hash operand)

/-- R83, R244: exactly the words of R83's four cases are illegal; no instruction puts one into MOP; and a BUSY engine
whose MOP holds one raises ILLEGAL_MICRO_OP. -/
def Obligations.IllegalMicroOpWordsFault : Prop :=
  (∀ w, illegalMopWord w ↔ ∃ e, decodeMop w = .error e) ∧
    (∀ i s t w, exec i s = .next t → t.mop = some w → illegalMopWord w → isMicroOp i = false ∧ s.mop = some w) ∧
    ∀ s w, engineNext s → s.phase = .busy → s.mop = some w → illegalMopWord w →
      step s = .next (faultEntry .illegalMicroOp (afterTurn s))

/-- R88: exactly the words of R88's cases spell no command; issuing one is refused and changes no engine state. -/
def Obligations.IllegalHostWordsAreRefused : Prop :=
  (∀ w operand, illegalHostWord w ↔ ∃ e, decodeHostCommand w operand = .error e) ∧
    ∀ s w operand rest, s.agenda = .host (.command w operand) :: rest → illegalHostWord w →
      step s = .next (afterRefusal .illegalHostCommand (afterTurn s))

/-- The words of spec/95_test_vectors.md section 6 that decode, one per family and more. -/
def Obligations.WordsOfTheSpecDecode : Prop :=
  decodeMop 0x0010 = .ok .padTerm ∧ decodeMop 0x0014 = .ok .padLen ∧ decodeMop 0x0020 = .ok .loadIv ∧
    decodeMop 0x1030 = .ok (.sched 16) ∧ decodeMop 0x3F30 = .ok (.sched 63) ∧ decodeMop 0x3F41 = .ok (.round 63) ∧
    decodeMop 0x0050 = .ok .finish ∧ decodeHostCommand 0x0001 3 = .ok (.hash 3) ∧
    decodeHostCommand 0x0703 0 = .ok (.readDigest 7) ∧ decodeHostCommand 0x000F 0 = .ok .reset

/-! Steps (spec/44_host_and_sequencer.md R206) -/

/-- A step runs the decoded instruction: a BUSY engine whose turn is next performs the micro-operation that MOP holds,
and a host turn performs the command its word spells. The step takes the turn off the agenda first (log 5). -/
def Obligations.StepRunsTheDecodedInstruction : Prop :=
  (∀ s w i, engineNext s → s.phase = .busy → s.mop = some w → decodeMop w = .ok i → step s = exec i (afterTurn s)) ∧
    ∀ s w operand rest i, s.agenda = .host (.command w operand) :: rest → decodeHostCommand w operand = .ok i →
      step s = exec i (afterTurn s)

/-- The model's one table for two formats (log 22) is harmless, since no word is legal in both; and the word that
`withFetchWord` places runs next (log 17): a host command on the state itself, a micro-operation on the state with the
engine BUSY and the word in MOP. -/
def Obligations.PlacedWordRunsNext : Prop :=
  (∀ w operand i, decodeMop w = .ok i → ∃ e, decodeHostCommand w operand = .error e) ∧
    ∀ s nbits w i, decodeTableWord nbits w = some i →
      step (s.withFetchWord nbits w) =
        exec i (if isMicroOp i then { s with phase := .busy, mop := some (encode i) } else s)

/-- R206, R258: in IDLE, DONE and FAULT the engine has no step; its turn leaves everything unchanged (log 6). -/
def Obligations.EngineWaitsOutsideBusy : Prop :=
  ∀ s, engineNext s → s.phase ≠ .busy → step s = .next (afterTurn s)

/-- R207: the successor of every micro-operation that completes, what else it does to BLK, and that the word it leaves in
MOP is never illegal. -/
def Obligations.SuccessorTable : Prop :=
  ∀ s t, s.phase = .busy → t.phase ≠ .fault →
    (exec .padTerm s = .next t → t.mop = some 0x0011) ∧
      (exec .padAlign s = .next t → t.mop = some 0x0012) ∧
      (exec .padAlloc s = .next t → t.mop = some 0x0013) ∧
      (exec .padPack s = .next t → t.mop = some 0x0014) ∧
      (exec .padLen s = .next t → t.mop = some 0x0020) ∧
      (exec .loadIv s = .next t → t.mop = some (encode (.sched 16)) ∧ (s.blk = some 0 → t.blk = some 0)) ∧
      (∀ n, n.toNat < 63 → exec (.sched n) s = .next t → t.mop = some (encode (.sched (n + 1)))) ∧
      (exec (.sched 63) s = .next t → t.mop = some 0x0040) ∧
      (exec .initWork s = .next t → t.mop = some 0x0041) ∧
      (∀ n, n.toNat < 63 → exec (.round n) s = .next t → t.mop = some (encode (.round (n + 1)))) ∧
      (exec (.round 63) s = .next t → t.mop = some 0x0042) ∧
      (exec .addState s = .next t → ∃ b n, s.blk = some b ∧ s.nblk = some n ∧
        ((b + 1 < n ∧ t.mop = some 0x1030 ∧ t.blk = some (b + 1)) ∨
          (b + 1 = n ∧ t.mop = some 0x0050 ∧ t.blk = some b))) ∧
      (exec .finish s = .next t → t.mop = none ∧ t.blk = none ∧ t.phase = .done) ∧
      ∀ i, isMicroOp i = true → exec i s = .next t →
        (i ≠ .loadIv → i ≠ .addState → i ≠ .finish → t.blk = s.blk) ∧ ∀ w, t.mop = some w → ¬ illegalMopWord w

/-! Reset, status, host actions (spec/10_state.md R22, R37; spec/44_host_and_sequencer.md R200 to R205) -/

/-- R37, R271: the state after power-on, for every value of the parameters; its parameters meet R7. -/
def Obligations.PowerOnState : Prop :=
  (∀ cfg, (State.resetWith cfg).phase = .idle ∧ (State.resetWith cfg).faultCode = .none ∧
      (State.resetWith cfg).inlen = none ∧ (State.resetWith cfg).plen = none ∧ (State.resetWith cfg).nblk = none ∧
      (State.resetWith cfg).blocks = none ∧ (∀ j, words8Get (State.resetWith cfg).h j = none) ∧
      (∀ j, words8Get (State.resetWith cfg).wv j = none) ∧ (State.resetWith cfg).mop = none ∧
      (State.resetWith cfg).blk = none ∧ (State.resetWith cfg).refused = false) ∧
    State.reset = State.resetWith Config.chip ∧ Config.chip.Ok

/-- R204, R270: RESET from any state. It leaves IN, the REFUSED mark, the parameters and the agenda. -/
def Obligations.ResetCommand : Prop :=
  encode .reset = 0x000F ∧ ∀ s, exec .reset s = .next
    { s with
      phase := .idle, faultCode := .none, inlen := none, plen := none, nblk := none, blocks := none
      h := noWords8, wv := noWords8, mop := none, blk := none, reply := .nothing }

/-- R22, R202: READ_STATUS answers in every phase with PHASE in bits 1:0, FAULT_CODE in bits 4:2 and zeros above, and
changes nothing else. -/
def Obligations.ReadStatusGivesTheStatusView : Prop :=
  ∀ s, ∃ w : Word, exec .readStatus s = .next { s with reply := .word w } ∧
    w.extractLsb' 0 2 = (match s.phase with | .idle => 0#2 | .busy => 1#2 | .done => 2#2 | .fault => 3#2) ∧
    w.extractLsb' 2 3 = (match s.faultCode with
      | .none => 0#3 | .lengthOverflow => 1#3 | .resourceExhausted => 2#3 | .unwrittenRead => 3#3
      | .illegalMicroOp => 4#3) ∧
    w.extractLsb' 5 27 = 0#27

/-- R203: READ_DIGEST j answers H[j] in DONE and changes nothing else; it is refused in IDLE, BUSY and FAULT. -/
def Obligations.ReadDigestOnlyInDone : Prop :=
  (∀ j, encode (.readDigest j) = 0#5 ++ j ++ 0x03#8) ∧
    (∀ s j w, s.phase = .done → words8Get s.h j = some w →
      exec (.readDigest j) s = .next { s with reply := .word w }) ∧
    ∀ s j, s.phase ≠ .done → exec (.readDigest j) s = .next (afterRefusal .digestNotReady s)

/-- R201: HASH L in IDLE and DONE starts a fresh invocation at PAD_TERM; in BUSY and FAULT it is refused. -/
def Obligations.HashStartsAnInvocation : Prop :=
  (∀ len, encode (.hash len) = 0x0001 ∧ encodeOperand (.hash len) = len) ∧
    (∀ s len, s.phase = .idle ∨ s.phase = .done →
      exec (.hash len) s = .next
        { s with
          inlen := some len, plen := none, nblk := none, h := noWords8, wv := noWords8, blocks := none
          blk := some 0, mop := some 0x0010, phase := .busy, reply := .nothing }) ∧
    ∀ s len, s.phase = .busy ∨ s.phase = .fault → exec (.hash len) s = .next (afterRefusal .hashNotAccepted s)

/-- R205: `IN[k] := v` outside BUSY writes byte k and nothing else; in BUSY it is refused. -/
def Obligations.InputWriteRule : Prop :=
  (∀ s k v rest, s.agenda = .host (.writeIn k v) :: rest → memWf s.input = true → s.phase ≠ .busy →
      ∃ t, step s = .next t ∧ memRead t.input k.toNat = v ∧
        (∀ j, j ≠ k.toNat → memRead t.input j = memRead s.input j) ∧ memWf t.input = true ∧ sameEngine s t ∧
        t.cfg = s.cfg ∧ t.refused = s.refused ∧ t.agenda = rest) ∧
    ∀ s k v rest, s.agenda = .host (.writeIn k v) :: rest → s.phase = .busy →
      step s = .next (afterRefusal .inputWriteWhileBusy (afterTurn s))

/-- R200: each host action is accepted in exactly the phases of the table: then it sets no REFUSED mark and its reply is
no refusal; otherwise it is refused. The premise on H in DONE is part of the invariant (log 9). -/
def Obligations.AcceptanceByPhase : Prop :=
  (∀ i s, isMicroOp i = false → (s.phase = .done → allHold s.h) →
    ∃ t, exec i s = .next t ∧
      (acceptedIn i s.phase → t.refused = s.refused ∧ ∀ r, t.reply ≠ .refused r) ∧
      (¬ acceptedIn i s.phase → ∃ r, t = afterRefusal r s)) ∧
    ∀ k v s, ∃ t, hostWriteIn k v s = .next t ∧
      (s.phase ≠ .busy → t.refused = s.refused ∧ ∀ r, t.reply ≠ .refused r) ∧
      (s.phase = .busy → t = afterRefusal .inputWriteWhileBusy s)

/-- R7, R38, R50, R51: no step changes the parameters, none clears the REFUSED mark, and only a host write outside BUSY
changes the input space. -/
def Obligations.OutsideOfTheEnginePersists : Prop :=
  ∀ s t, step s = .next t →
    t.cfg = s.cfg ∧ (s.refused = true → t.refused = true) ∧
      ((∃ k v rest, s.agenda = .host (.writeIn k v) :: rest ∧ s.phase ≠ .busy) ∨ t.input = s.input)

/-- R35: the host sees STATUS, and H in DONE, and nothing else: a step that hands back a word is a READ_STATUS giving
the status view, or a READ_DIGEST in DONE giving H[j]; an engine turn hands back nothing new. -/
def Obligations.HostSeesOnlyStatusAndDigest : Prop :=
  ∀ s t w, step s = .next t → t.reply = .word w →
    (engineNext s ∧ s.reply = .word w) ∨
      (∃ operand rest, s.agenda = .host (.command 0x0002 operand) :: rest ∧ w = statusWord s) ∨
      ∃ j operand rest, s.agenda = .host (.command (encode (.readDigest j)) operand) :: rest ∧ s.phase = .done ∧
        words8Get s.h j = some w

/-- R215, R218: while BUSY, no host action but RESET changes the engine's state or the input. -/
def Obligations.HostCannotDisturbAnInvocation : Prop :=
  ∀ s a rest, s.phase = .busy → s.agenda = .host a :: rest → (∀ operand, a ≠ .command 0x000F operand) →
    ∃ t, step s = .next t ∧ sameEngine s t ∧ t.input = s.input ∧ t.agenda = rest

/-- R27, R35: once DONE, the digest stays until a HASH or a RESET. -/
def Obligations.DigestStaysUntilHashOrReset : Prop :=
  ∀ s t, s.phase = .done → step s = .next t →
    (t.phase = .done ∧ t.h = s.h) ∨
      ∃ w operand rest, s.agenda = .host (.command w operand) :: rest ∧ (w = 0x0001 ∨ w = 0x000F)

/-! Faults (spec/60_exceptions.md) -/

/-- R240: a micro-operation that ends in FAULT has written nothing: the next state is the fault entry, with a code other
than NONE; INLEN and everything outside the engine stay. No later micro-operation runs. -/
def Obligations.FaultsArePrecise : Prop :=
  (∀ i s t, isMicroOp i = true → s.phase ≠ .fault → exec i s = .next t → t.phase = .fault →
    t.faultCode ≠ .none ∧
      t =
        { s with
          phase := .fault, faultCode := t.faultCode, mop := none, blk := none, plen := none, nblk := none
          h := noWords8, wv := noWords8, blocks := none }) ∧
    ∀ s, s.phase = .fault → engineNext s → step s = .next (afterTurn s)

/-- R39 for the elements that the named rules do not list (the model's reading, log 2); and READ_DIGEST in DONE of a word
without a value is refused (log 9); and SCHED reached with an index below 16 raises ILLEGAL_MICRO_OP whatever the state
holds (log 19). -/
def Obligations.GuardsOfTheModel : Prop :=
  (∀ s, s.inlen = none → exec .padTerm s = .next (faultEntry .unwrittenRead s) ∧
      exec .padAlloc s = .next (faultEntry .unwrittenRead s) ∧
      exec .padPack s = .next (faultEntry .unwrittenRead s) ∧
      exec .padLen s = .next (faultEntry .unwrittenRead s)) ∧
    (∀ s, s.plen = none → exec .padAlign s = .next (faultEntry .unwrittenRead s) ∧
      exec .padPack s = .next (faultEntry .unwrittenRead s)) ∧
    (∀ s, s.nblk = none → exec .padLen s = .next (faultEntry .unwrittenRead s) ∧
      exec .addState s = .next (faultEntry .unwrittenRead s)) ∧
    (∀ s, s.blk = none → exec .addState s = .next (faultEntry .unwrittenRead s)) ∧
    (∀ s i, 16 ≤ i.toNat → (s.blk = none ∨ s.blocks = none) →
      exec (.sched i) s = .next (faultEntry .unwrittenRead s)) ∧
    (∀ s i, (s.blk = none ∨ s.blocks = none) → exec (.round i) s = .next (faultEntry .unwrittenRead s)) ∧
    (∀ s, engineNext s → s.phase = .busy → s.mop = none →
      step s = .next (faultEntry .unwrittenRead (afterTurn s))) ∧
    (∀ s j, s.phase = .done → words8Get s.h j = none →
      exec (.readDigest j) s = .next (afterRefusal .digestNotReady s)) ∧
    ∀ s i, i.toNat < 16 → exec (.sched i) s = .next (faultEntry .illegalMicroOp s)

/-- R246: FAULT and its code stay until a RESET. -/
def Obligations.FaultStaysUntilReset : Prop :=
  ∀ s t, s.phase = .fault → step s = .next t →
    (t.phase = .fault ∧ t.faultCode = s.faultCode) ∨
      ∃ operand rest, s.agenda = .host (.command 0x000F operand) :: rest ∧ t.phase = .idle

/-- The model's stops (logs 3 and 4) say what they are: a micro-operation stops only where the block it needs is not in
the array, or BLK has passed NBLK - 1; and no step of the model is refused, since a host action the spec refuses is a
next state (log 8). -/
def Obligations.StopsOnlyOutsideTheArray : Prop :=
  (∀ i s f, exec i s = .fault f →
    (f = .noSuchBlock ∧ (s.blocks = none ∨ ∃ bs, s.blocks = some bs ∧
        ((∃ b, s.blk = some b ∧ bs.length ≤ b) ∨ (∃ p, s.plen = some p ∧ 16 * bs.length < p.toNat / 4) ∨
          ∃ n, s.nblk = some n ∧ (n = 0 ∨ bs.length < n)))) ∨
      (f = .noSuccessor ∧ i = .addState ∧ ∃ b n, s.blk = some b ∧ s.nblk = some n ∧ n < b + 1)) ∧
    ∀ s r, step s ≠ .refused r

/-! Datapath (spec/40_datapath.md) and ROMs -/

/-- R100, R101, R102: rotation moves bit (k + n) mod 32 to bit k; the shift divides; addition is modulo 2^32, in any
grouping and order. -/
def Obligations.RotateShiftAndAdd : Prop :=
  (∀ (x : Word) (n : Nat) (h : 1 ≤ n ∧ n ≤ 31),
    (∀ k, k < 32 → (rotr x n h).getLsbD k = x.getLsbD ((k + n) % 32)) ∧ (shr x n h).toNat = x.toNat / 2 ^ n) ∧
    ∀ x y z : Word, (add32 x y).toNat = (x.toNat + y.toNat) % 2 ^ 32 ∧ add32 x y = add32 y x ∧
      add32 (add32 x y) z = add32 x (add32 y z)

/-- R106 to R111, bit by bit: Ch chooses, Maj is one exactly when two of its bits are, each sigma function is the
exclusive or of three bits, where a shifted-in bit is zero. -/
def Obligations.MixingFunctionBits : Prop :=
  (∀ (x y z : Word) (k : Nat), k < 32 →
    (ch x y z).getLsbD k = (if x.getLsbD k then y.getLsbD k else z.getLsbD k) ∧
      ((maj x y z).getLsbD k = true ↔
        (x.getLsbD k = true ∧ y.getLsbD k = true) ∨ (x.getLsbD k = true ∧ z.getLsbD k = true) ∨
          (y.getLsbD k = true ∧ z.getLsbD k = true))) ∧
    ∀ (x : Word) (k : Nat), k < 32 →
      (bigSigma0 x).getLsbD k =
          ((x.getLsbD ((k + 2) % 32) ^^ x.getLsbD ((k + 13) % 32)) ^^ x.getLsbD ((k + 22) % 32)) ∧
        (bigSigma1 x).getLsbD k =
          ((x.getLsbD ((k + 6) % 32) ^^ x.getLsbD ((k + 11) % 32)) ^^ x.getLsbD ((k + 25) % 32)) ∧
        (smallSigma0 x).getLsbD k =
          ((x.getLsbD ((k + 7) % 32) ^^ x.getLsbD ((k + 18) % 32)) ^^ (decide (k + 3 < 32) && x.getLsbD (k + 3))) ∧
        (smallSigma1 x).getLsbD k =
          ((x.getLsbD ((k + 17) % 32) ^^ x.getLsbD ((k + 19) % 32)) ^^ (decide (k + 10 < 32) && x.getLsbD (k + 10)))

/-- R171: K[i] and IV[j] are the fractional bits of cube and square roots of the first primes, in exact integers. -/
def Obligations.RomsAreRootsOfPrimes : Prop :=
  firstPrimes = (List.range 312).filter (fun n => decide (Nat.Prime n)) ∧
    (∀ i, i < 64 → ∃ q, q < 7 ∧ (q * 2 ^ 32 + (romK i).toNat) ^ 3 ≤ firstPrimes.getD i 0 * 2 ^ 96 ∧
      firstPrimes.getD i 0 * 2 ^ 96 < (q * 2 ^ 32 + (romK i).toNat + 1) ^ 3) ∧
    ∀ j : BitVec 3, ∃ q, q < 5 ∧ (q * 2 ^ 32 + (words8Get romIV j).toNat) ^ 2 ≤ firstPrimes.getD j.toNat 0 * 2 ^ 64 ∧
      firstPrimes.getD j.toNat 0 * 2 ^ 64 < (q * 2 ^ 32 + (words8Get romIV j).toNat + 1) ^ 2

/-! Padder (spec/41_padder.md) -/

/-- R130, R241: PAD_TERM, with LENGTH_OVERFLOW before any write. The sum does not wrap. -/
def Obligations.PadTermRule : Prop :=
  ∀ s len, s.inlen = some len →
    encode .padTerm = 0x0010 ∧ paddedByte s.input len.toNat len.toNat = 0x80 ∧
      (s.cfg.maxInputBytes.toNat < len.toNat → exec .padTerm s = .next (faultEntry .lengthOverflow s)) ∧
      (len.toNat ≤ s.cfg.maxInputBytes.toNat → ∃ p : U64, p.toNat = len.toNat + 1 ∧
        exec .padTerm s = .next { s with plen := some p, mop := some 0x0011 })

/-- R131: PAD_ALIGN rounds PLEN up to a multiple of 4, adding at most 3. -/
def Obligations.PadAlignRule : Prop :=
  ∀ s p, s.plen = some p → p.toNat ≤ 2 ^ 64 - 4 →
    encode .padAlign = 0x0011 ∧ ∃ q : U64, q.toNat = 4 * ((p.toNat + 3) / 4) ∧ q.toNat < p.toNat + 4 ∧
      exec .padAlign s = .next { s with plen := some q, mop := some 0x0012 }

/-- R134, R242: PAD_ALLOC, with RESOURCE_EXHAUSTED before anything is allocated; a fresh block has words 0..15 zero and
words 16..63 without a value. -/
def Obligations.PadAllocRule : Prop :=
  ∀ s len, s.inlen = some len →
    encode .padAlloc = 0x0012 ∧
      (s.cfg.maxBlocks < blockCount len.toNat → exec .padAlloc s = .next (faultEntry .resourceExhausted s)) ∧
      (blockCount len.toNat ≤ s.cfg.maxBlocks → ∃ bs : List Block,
        exec .padAlloc s = .next { s with nblk := some (blockCount len.toNat), blocks := some bs, mop := some 0x0013 } ∧
          bs.length = blockCount len.toNat ∧
          ∀ b i, b < bs.length → i < 64 → wordAt bs b i = if i < 16 then some 0 else none)

/-- R135: PAD_PACK moves words 0 .. PLEN/4 - 1 of the padded stream into their places, and changes no other word. -/
def Obligations.PadPackRule : Prop :=
  ∀ s len p bs, s.inlen = some len → s.plen = some p → s.blocks = some bs → p.toNat / 4 ≤ 16 * bs.length →
    encode .padPack = 0x0013 ∧ ∃ bs', exec .padPack s = .next { s with blocks := some bs', mop := some 0x0014 } ∧
      bs'.length = bs.length ∧
      ∀ b i, b < bs.length → i < 64 → wordAt bs' b i =
        if i < 16 ∧ 16 * b + i < p.toNat / 4 then some (paddedWord s.input len.toNat (16 * b + i)) else wordAt bs b i

/-- R136: PAD_LEN writes the two halves of 8 L into words 14 and 15 of the final block, and changes no other word. -/
def Obligations.PadLenRule : Prop :=
  ∀ s len n bs, s.inlen = some len → len.toNat < 2 ^ 61 → s.nblk = some n → 1 ≤ n → n ≤ bs.length →
    s.blocks = some bs →
    encode .padLen = 0x0014 ∧ ∃ bs' hi lo, exec .padLen s = .next { s with blocks := some bs', mop := some 0x0020 } ∧
      bs'.length = bs.length ∧ (hi : Word).toNat * 2 ^ 32 + (lo : Word).toNat = 8 * len.toNat ∧
      ∀ b i, wordAt bs' b i =
        if b + 1 = n ∧ i = 14 then some hi else if b + 1 = n ∧ i = 15 then some lo else wordAt bs b i

/-- R132, R139: the block count is the least n with 512 n ≥ 8 L + 65, which is floor((L + 8) / 64) + 1; counting the
terminator as a byte gives the same; and its boundaries (R140, first sentence). -/
def Obligations.BlockCountLaw : Prop :=
  (∀ len n, 512 * n ≥ 8 * len + 65 ↔ n ≥ blockCount len) ∧ (∀ len, blockCount len = (len + 8) / 64 + 1) ∧
    (∀ len, blockCount len = (8 * len + 72 + 511) / 512) ∧
    (∀ len q, 64 * q ≤ len → len ≤ 64 * q + 55 → blockCount len = q + 1) ∧
    ∀ len q, 64 * q + 56 ≤ len → len ≤ 64 * q + 63 → blockCount len = q + 2

/-- R138: the padded stream ends before the length field, which is the last 8 bytes of the final block. -/
def Obligations.StreamEndsBeforeLengthField : Prop :=
  ∀ len : U64, len.toNat < 2 ^ 61 → (alignedLength (len + 1)).toNat + 8 ≤ 64 * blockCount len.toNat

/-- R55, R133, R141: the padder drops and reorders no byte: byte k of the input is byte k mod 4, from the top, of word
k div 4 of the padded stream; the terminator follows and then zeros. -/
def Obligations.PaddedStreamKeepsEveryByte : Prop :=
  ∀ input len k, (paddedWord input len (k / 4)).extractLsb' (24 - 8 * (k % 4)) 8 =
    if k < len then memRead input k else if k = len then 0x80 else 0x00

/-- R137: after HASH and the five padder steps, the message words are those of the derived rule, and no expanded word
holds a value. -/
def Obligations.MessageWordsAfterThePadder : Prop :=
  ∀ s len, hashIssued s len → len.toNat ≤ s.cfg.maxInputBytes.toNat → blockCount len.toNat ≤ s.cfg.maxBlocks →
    ∃ t bs, runsTo 6 s t ∧ t.phase = .busy ∧ t.mop = some 0x0020 ∧ t.nblk = some (blockCount len.toNat) ∧
      t.blocks = some bs ∧ bs.length = blockCount len.toNat ∧
      (∀ b i, b < bs.length → i < 16 → wordAt bs b i = some (messageWord s.input len (16 * b + i))) ∧
      ∀ b i, b < bs.length → 16 ≤ i → i < 64 → wordAt bs b i = none

/-! Schedule (spec/42_schedule.md) and compression (spec/43_compression.md) -/

/-- R160: SCHED i writes σ1(W[i-2]) + W[i-7] + σ0(W[i-15]) + W[i-16] into W[i] of block BLK and changes no other word;
an operand without a value raises UNWRITTEN_READ. -/
def Obligations.SchedRule : Prop :=
  (∀ i, encode (.sched i) = 0#2 ++ i ++ 0x30#8) ∧
    ∀ s i b bs cur, 16 ≤ i.toNat → s.blk = some b → s.blocks = some bs → bs[b]? = some cur →
      ((blockGet cur (i.toNat - 2) = none ∨ blockGet cur (i.toNat - 7) = none ∨
          blockGet cur (i.toNat - 15) = none ∨ blockGet cur (i.toNat - 16) = none) →
        exec (.sched i) s = .next (faultEntry .unwrittenRead s)) ∧
      ∀ x2 x7 x15 x16, blockGet cur (i.toNat - 2) = some x2 → blockGet cur (i.toNat - 7) = some x7 →
        blockGet cur (i.toNat - 15) = some x15 → blockGet cur (i.toNat - 16) = some x16 →
        ∃ bs', exec (.sched i) s = .next
            { s with
              blocks := some bs'
              mop := some (if i.toNat < 63 then encode (.sched (i + 1)) else 0x0040) } ∧
          bs'.length = bs.length ∧
          ∀ c j, wordAt bs' c j =
            if c = b ∧ j = i.toNat then some (smallSigma1 x2 + x7 + smallSigma0 x15 + x16) else wordAt bs c j

/-- R162: the 48 SCHED steps of a block, from SCHED 16, leave the message schedule of its 16 message words; they change
no other block and nothing else of the state; and the schedule obeys the recursion of R162. -/
def Obligations.ScheduleOfABlock : Prop :=
  (∀ m n, schedule m n = if n < 16 then m n else
      smallSigma1 (schedule m (n - 2)) + schedule m (n - 7) + smallSigma0 (schedule m (n - 15)) + schedule m (n - 16)) ∧
    ∀ s m b bs cur, s.phase = .busy → s.agenda = [] → s.mop = some 0x1030 → s.blk = some b → s.blocks = some bs →
      bs[b]? = some cur → (∀ i, i < 16 → blockGet cur i = some (m i)) →
      ∃ bs', runsTo 48 s { s with blocks := some bs', mop := some 0x0040 } ∧ bs'.length = bs.length ∧
        ∀ c j, j < 64 → wordAt bs' c j = if c = b then some (schedule m j) else wordAt bs c j

/-- R172: LOAD_IV writes IV into H, whatever H held; BLK, which is 0 already, stays 0. -/
def Obligations.LoadIvRule : Prop :=
  encode .loadIv = 0x0020 ∧ ∀ s, ∃ b, (s.blk = some 0 → b = some 0) ∧ exec .loadIv s = .next
    { s with
      h := ⟨some 0x6a09e667, some 0xbb67ae85, some 0x3c6ef372, some 0xa54ff53a,
        some 0x510e527f, some 0x9b05688c, some 0x1f83d9ab, some 0x5be0cd19⟩
      blk := b
      mop := some 0x1030 }

/-- R173: INIT_WORK copies H into a..h; a word of H without a value raises UNWRITTEN_READ. -/
def Obligations.InitWorkRule : Prop :=
  encode .initWork = 0x0040 ∧
    (∀ s d, s.h = someWords8 d → exec .initWork s = .next { s with wv := someWords8 d, mop := some 0x0041 }) ∧
    ∀ s j, words8Get s.h j = none → exec .initWork s = .next (faultEntry .unwrittenRead s)

/-- R174: one round, every read before any write; a W[i] or a working variable without a value raises UNWRITTEN_READ. -/
def Obligations.RoundRule : Prop :=
  (∀ i, encode (.round i) = 0#2 ++ i ++ 0x41#8) ∧
    ∀ s i bk bs cur, s.blk = some bk → s.blocks = some bs → bs[bk]? = some cur →
      ((blockGet cur i.toNat = none ∨ ∃ j, words8Get s.wv j = none) →
        exec (.round i) s = .next (faultEntry .unwrittenRead s)) ∧
      ∀ w a b c d e f g h, blockGet cur i.toNat = some w → s.wv = someWords8 ⟨a, b, c, d, e, f, g, h⟩ →
        ∃ t1 t2 : Word, t1 = h + bigSigma1 e + ch e f g + romK i.toNat + w ∧ t2 = bigSigma0 a + maj a b c ∧
          exec (.round i) s = .next
            { s with
              wv := someWords8 ⟨t1 + t2, a, b, c, d + t1, e, f, g⟩
              mop := some (if i.toNat < 63 then encode (.round (i + 1)) else 0x0042) }

/-- R175, with the last two rows of R207: ADD_STATE adds component by component, then goes to the next block or to
FINISH; a word of H or a working variable without a value raises UNWRITTEN_READ. -/
def Obligations.AddStateRule : Prop :=
  encode .addState = 0x0042 ∧
    (∀ s j, (words8Get s.h j = none ∨ words8Get s.wv j = none) →
      exec .addState s = .next (faultEntry .unwrittenRead s)) ∧
    ∀ s x y b n, s.h = someWords8 x → s.wv = someWords8 y → s.blk = some b → s.nblk = some n → b < n →
      exec .addState s = .next
        { s with
          h := someWords8 ⟨x.w0 + y.w0, x.w1 + y.w1, x.w2 + y.w2, x.w3 + y.w3,
            x.w4 + y.w4, x.w5 + y.w5, x.w6 + y.w6, x.w7 + y.w7⟩
          blk := some (if b + 1 < n then b + 1 else b)
          mop := some (if b + 1 < n then 0x1030 else 0x0050) }

/-- R176: INIT_WORK, the 64 rounds and ADD_STATE of a block leave Compress(H, W) in H, whatever a..h held before; they
change neither the block array nor anything outside the engine. -/
def Obligations.CompressionOfABlock : Prop :=
  ∀ s st w b n bs cur, s.phase = .busy → s.agenda = [] → s.mop = some 0x0040 → s.h = someWords8 st →
    s.blk = some b → s.nblk = some n → b < n → s.blocks = some bs → bs[b]? = some cur →
    (∀ i, i < 64 → blockGet cur i = some (w i)) →
    ∃ v, runsTo 66 s
      { s with
        h := someWords8 (compress st w)
        wv := v
        blk := some (if b + 1 < n then b + 1 else b)
        mop := some (if b + 1 < n then 0x1030 else 0x0050) }

/-- R210: FINISH ends the invocation: DONE, the hidden state released, H and INLEN kept. -/
def Obligations.FinishRule : Prop :=
  encode .finish = 0x0050 ∧ ∀ s, exec .finish s = .next
    { s with
      phase := .done, mop := none, blk := none, plen := none, nblk := none, wv := noWords8, blocks := none }

/-! Frames -/

/-- What each micro-operation that completes leaves unchanged: every engine register but those its rule writes, and
everything outside the engine, every byte of the input space among it (R50). The words of the block array that PAD_PACK,
PAD_LEN and SCHED leave are in their own statements. -/
def Obligations.MicroOpFrames : Prop :=
  ∀ i s t, isMicroOp i = true → s.phase = .busy → exec i s = .next t → t.phase ≠ .fault →
    sameOutside s t ∧ t.inlen = s.inlen ∧ t.faultCode = s.faultCode ∧
      (i ≠ .finish → t.phase = s.phase) ∧
      (i ≠ .padTerm → i ≠ .padAlign → i ≠ .finish → t.plen = s.plen) ∧
      (i ≠ .padAlloc → i ≠ .finish → t.nblk = s.nblk) ∧
      (i ≠ .padAlloc → i ≠ .padPack → i ≠ .padLen → (∀ n, i ≠ .sched n) → i ≠ .finish → t.blocks = s.blocks) ∧
      (i ≠ .loadIv → i ≠ .addState → t.h = s.h) ∧
      (i ≠ .initWork → (∀ n, i ≠ .round n) → i ≠ .finish → t.wv = s.wv) ∧
      (i ≠ .loadIv → i ≠ .addState → i ≠ .finish → t.blk = s.blk)

/-- What a host command leaves unchanged: the parameters, every byte of the input space, and the agenda; READ_STATUS,
READ_DIGEST and every refused command leave the engine as it is too (R61, R250). -/
def Obligations.HostCommandFrames : Prop :=
  ∀ i s t, isMicroOp i = false → exec i s = .next t →
    t.cfg = s.cfg ∧ (∀ k, memRead t.input k = memRead s.input k) ∧ t.agenda = s.agenda ∧
      ((i = .readStatus ∨ (∃ j, i = .readDigest j) ∨ ∃ r, t.reply = .refused r) → sameEngine s t) ∧
      ((∀ r, t.reply ≠ .refused r) → t.refused = s.refused)

/-! The whole machine -/

/-- The invariant holds after power-on, for every admissible value of the parameters. -/
def Obligations.PowerOnMeetsTheInvariant : Prop :=
  (∀ cfg : Config, cfg.Ok → (State.resetWith cfg).Inv) ∧ State.reset.Inv

/-- From every state that meets the invariant the machine takes a step, whoever's turn it is, and the next state meets
it again: no stop of the model is ever reached. -/
def Obligations.EveryStepKeepsTheInvariant : Prop := ∀ s : State, s.Inv → ∃ t, step s = .next t ∧ t.Inv

/-- R278: in states that meet the invariant no engine step raises UNWRITTEN_READ or ILLEGAL_MICRO_OP: the only faults
are LENGTH_OVERFLOW at PAD_TERM and RESOURCE_EXHAUSTED at PAD_ALLOC. -/
def Obligations.OnlyTwoFaultsAreReached : Prop :=
  ∀ s t, s.Inv → s.phase = .busy → step s = .next t → t.phase = .fault →
    (t.faultCode = .lengthOverflow ∧ s.mop = some 0x0010) ∨ (t.faultCode = .resourceExhausted ∧ s.mop = some 0x0012)

/-- R208, R211, R221: from any state in IDLE or DONE, HASH L for an accepted L and the engine's steps, exactly
6 + 114 N + 1 of them, end in DONE with Digest(IN[0..L-1]) in H; the input, the parameters and the REFUSED mark are as
before, and the working state is released. -/
def Obligations.InvocationComputesTheDigest : Prop :=
  ∀ s len, hashIssued s len → len.toNat ≤ s.cfg.maxInputBytes.toNat → blockCount len.toNat ≤ s.cfg.maxBlocks →
    ∃ t, runsTo (1 + (6 + 114 * blockCount len.toNat + 1)) s t ∧ t.phase = .done ∧
      t.h = someWords8 (digest s.input len) ∧ t.inlen = some len ∧ t.faultCode = s.faultCode ∧ t.input = s.input ∧
      t.cfg = s.cfg ∧ t.refused = s.refused ∧ released t

/-- R208: until its last step such an invocation is BUSY, so it takes exactly that many steps. -/
def Obligations.InvocationIsBusyUntilItsLastStep : Prop :=
  ∀ s len k, hashIssued s len → len.toNat ≤ s.cfg.maxInputBytes.toNat → blockCount len.toNat ≤ s.cfg.maxBlocks →
    k < 6 + 114 * blockCount len.toNat + 1 → ∃ t, runsTo (1 + k) s t ∧ t.phase = .busy

/-- R241, R242, R245: an L above MAX_INPUT_BYTES ends in FAULT with LENGTH_OVERFLOW after one engine step, whatever
MAX_BLOCKS is; an accepted L that needs too many blocks ends with RESOURCE_EXHAUSTED after three. -/
def Obligations.OversizeInputsFault : Prop :=
  (∀ s len, hashIssued s len → s.cfg.maxInputBytes.toNat < len.toNat →
      ∃ t, runsTo 2 s t ∧ t.phase = .fault ∧ t.faultCode = .lengthOverflow ∧ t.h = noWords8 ∧ released t) ∧
    ∀ s len, hashIssued s len → len.toNat ≤ s.cfg.maxInputBytes.toNat → s.cfg.maxBlocks < blockCount len.toNat →
      ∃ t, runsTo 4 s t ∧ t.phase = .fault ∧ t.faultCode = .resourceExhausted ∧ t.h = noWords8 ∧ released t

/-- R215, R220: every accepted HASH ends within 7 + 114 N(L) engine steps, in DONE or in FAULT; that state is the end of
the run, unless the REFUSED mark was set already: then the run has no result. -/
def Obligations.EveryInvocationEnds : Prop :=
  ∀ s len, hashIssued s len →
    ∃ k t, k ≤ 7 + 114 * blockCount len.toNat ∧ runsTo (1 + k) s t ∧ (t.phase = .done ∨ t.phase = .fault) ∧
      runResult (1 + k) s = if s.refused then .noResult else .ended t

/-- R212, R213: the digest depends on the input bytes alone: two states that agree on IN[0..L-1] and accept L, whatever
else differs between them (an earlier digest, a fault code, other input bytes), end with the same H. -/
def Obligations.DigestDependsOnTheInputAlone : Prop :=
  ∀ s s' len, hashIssued s len → hashIssued s' len → len.toNat ≤ s.cfg.maxInputBytes.toNat →
    len.toNat ≤ s'.cfg.maxInputBytes.toNat → blockCount len.toNat ≤ s.cfg.maxBlocks →
    blockCount len.toNat ≤ s'.cfg.maxBlocks →
    (∀ k, k < len.toNat → memRead s.input k = memRead s'.input k) →
    ∃ t t', runsTo (8 + 114 * blockCount len.toNat) s t ∧ runsTo (8 + 114 * blockCount len.toNat) s' t' ∧
      t.phase = .done ∧ t'.phase = .done ∧ t.h = t'.h ∧ allHold t.h

/-- R58: the bytes of the digest, most significant first in each word, give the words back. -/
def Obligations.DigestBytesAreBigEndian : Prop :=
  ∀ (d : Words8 Word) (j : BitVec 3),
    bigEndianWord (digestByte d j 0) (digestByte d j 1) (digestByte d j 2) (digestByte d j 3) = words8Get d j

/-- R212, R214, R215: the schedule of host and engine turns does not matter. Of two states that agree in the engine, the
input and the parameters, one gives the engine every turn and is BUSY up to the last of them; the other takes the turns a,
among them as many engine turns and any host action but RESET, and no host action once the invocation has ended. Both end
with the same engine: in the middle of the invocation, or at its end. -/
def Obligations.HostTurnsDoNotChangeTheInvocation : Prop :=
  ∀ (a : List Turn) s t u, s.agenda = [] → t.agenda = a → sameEngine s t → t.input = s.input → t.cfg = s.cfg →
    (∀ operand, Turn.host (.command 0x000F operand) ∉ a) → runsTo (a.count .engine) s u →
    (∀ k, k < a.count .engine → ∃ x, runsTo k s x ∧ x.phase = .busy) →
    (u.phase = .busy ∨ a.getLast? = some .engine) →
    ∃ v, runsTo a.length t v ∧ sameEngine u v ∧ v.input = u.input ∧ v.cfg = u.cfg ∧ v.agenda = []

/-- R13: what each outcome of a step is. A refusal is the refused state, a fault is the fault entry of a BUSY engine, any
other answer leaves the REFUSED mark; and in states that meet the invariant no step is stuck (logs 3, 4, 8, 25). -/
def Obligations.OutcomesOfAStep : Prop :=
  (∀ s r, stepKind s = .refusal r → step s = .next (afterRefusal r (afterTurn s))) ∧
    (∀ s c, stepKind s = .fault c →
      s.phase = .busy ∧ c ≠ .none ∧ engineNext s ∧ step s = .next (faultEntry c (afterTurn s))) ∧
    (∀ s, stepKind s = .next → ∃ t, step s = .next t ∧ t.refused = s.refused ∧ (t.phase = .fault → s.phase = .fault)) ∧
    (∀ s, stepKind s = .stuck ↔ ∃ f, step s = .fault f) ∧ ∀ s : State, s.Inv → stepKind s ≠ .stuck

/-- R220: when a run ends and when it has no end result. It ends only in DONE, or in FAULT, where no digest can be read,
with the REFUSED mark clear, and only after a HASH has been accepted; at the first such state it does end, and the result
stands; a mark set before or during it, or a RESET, leaves it without a result. -/
def Obligations.EndOfARun : Prop :=
  (∀ n s t, runResult n s = .ended t →
      (t.phase = .done ∨ (t.phase = .fault ∧ ∀ d, ¬ readsDigest t d)) ∧ t.refused = false ∧
        ∃ k x, k < n ∧ runsTo k s x ∧ acceptsHash x = true) ∧
    (∀ m n s t, runResult n s = .ended t → n ≤ m → runResult m s = .ended t) ∧
    (∀ n s t, s.refused = false → acceptsHash s = true → step s = .next t → runResult (n + 1) s = runFrom true n t) ∧
    (∀ n s t, step s = .next t → t.refused = false → t.phase = .done ∨ t.phase = .fault →
      runFrom true (n + 1) s = .ended t) ∧
    (∀ n s t, step s = .next t → t.refused = false → t.phase = .busy → runFrom true (n + 1) s = runFrom true n t) ∧
    (∀ n s, s.refused = true → runResult n s = .noResult) ∧
    (∀ started n s t, step s = .next t → t.refused = true → runFrom started (n + 1) s = .noResult) ∧
    ∀ n s operand rest, s.agenda = .host (.command 0x000F operand) :: rest → runFrom true (n + 1) s = .noResult

/-- R221: from any state in IDLE or DONE with the REFUSED mark clear, after HASH L and whatever turns follow, every run
that reaches its end is in DONE with READ_DIGEST 0..7 = Digest(IN[0..L-1]), or in FAULT with the code that R241 and R242
give for L. A host that only polls always reaches the end: within 7 + 114 N(L) engine steps beyond its listed turns. -/
def Obligations.ObservationOfARun : Prop :=
  ∀ s len rest, s.phase = .idle ∨ s.phase = .done → s.refused = false →
    s.agenda = .host (.command 0x0001 len) :: rest →
    (∀ n t, runResult n s = .ended t →
      (t.phase = .done ∧ len.toNat ≤ s.cfg.maxInputBytes.toNat ∧ blockCount len.toNat ≤ s.cfg.maxBlocks ∧
          readsDigest t (digest s.input len)) ∨
        (t.phase = .fault ∧ t.faultCode = .lengthOverflow ∧ s.cfg.maxInputBytes.toNat < len.toNat) ∨
        (t.phase = .fault ∧ t.faultCode = .resourceExhausted ∧ len.toNat ≤ s.cfg.maxInputBytes.toNat ∧
          s.cfg.maxBlocks < blockCount len.toNat)) ∧
      ((∀ x, x ∈ rest → x = .engine ∨ ∃ operand, x = .host (.command 0x0002 operand)) →
        ∃ t, runResult (1 + rest.length + (7 + 114 * blockCount len.toNat)) s = .ended t)

/-- R7, R36, R214: a platform has N_ENGINES instances from power-on, at least one, and keeps them and the parameters;
steps of two instances commute, and one instance's step leaves every other instance alone.
It rests on log 14 (DEDUCED): an instance is a whole `State`, with an input space and a refused bit of its own, and the
model-wide mark of R38 is `platformRefused`, true when some instance has the bit. So "leaves alone" covers the other
instance's input space and bit as the model has them, and says nothing about `platformRefused`, which a step can set. -/
def Obligations.InstancesDoNotInteract : Prop :=
  (∀ cfg : Config, cfg.Ok → (Platform.powerOn cfg).Ok cfg ∧ ∃ s, (Platform.powerOn cfg).engines[0]? = some s) ∧
    (∀ cfg p q n, Platform.Ok cfg p → platformStep n p = .next q → Platform.Ok cfg q) ∧
    (∀ p q n k, platformStep n p = .next q → k ≠ n → q.engines[k]? = p.engines[k]?) ∧
    ∀ p q r n k, n ≠ k → platformStep n p = .next q → platformStep k p = .next r →
      ∃ u, platformStep k q = .next u ∧ platformStep n r = .next u
end

