-- ==== Sys2Proof/Laws/Blocks.lean ====
section
/-!
SUPPORT. The block array: reading a word after a word was written, the fresh array of PAD_ALLOC, the loop of PAD_PACK
and the length words of PAD_LEN (spec/41_padder.md R134 to R136).
-/

namespace Sys2Proof.Machine

theorem blockGet_blockSet (b : Block) (i j : Nat) (w : Word) :
    blockGet (blockSet b i w) j = if i = j ∧ i < 64 then some w else blockGet b j := by
  unfold blockGet blockSet
  rw [Vector.getElem?_setIfInBounds]
  by_cases h : i = j
  · subst h
    by_cases h2 : i < 64 <;> simp [h2]
  · simp [h]

theorem blockGet_freshBlock (i : Nat) : blockGet freshBlock i = if i < 16 then some 0 else none := by
  by_cases h : i < 64
  · have key : ∀ k : Fin 64, blockGet freshBlock k.val = if k.val < 16 then some 0 else none := by decide
    exact key ⟨i, h⟩
  · have h2 : freshBlock[i]? = none := by
      rw [Vector.getElem?_eq_none_iff]; omega
    simp [blockGet, h2, show ¬ i < 16 by omega]

theorem wordAt_replicate_freshBlock (n b i : Nat) (hb : b < n) :
    wordAt (List.replicate n freshBlock) b i = if i < 16 then some 0 else none := by
  simp [wordAt, hb, blockGet_freshBlock]

theorem setWordAt_eq_some (bs : List Block) (b i : Nat) (w : Word) (hb : b < bs.length) :
    setWordAt bs b i w = some (bs.set b (blockSet bs[b] i w)) := by
  simp [setWordAt, hb]

theorem setWordAt_eq_none (bs : List Block) (b i : Nat) (w : Word) (hb : bs.length ≤ b) :
    setWordAt bs b i w = none := by
  simp [setWordAt, hb]

/-- Everything `setWordAt` does: it answers exactly when the block exists, keeps the number of blocks, and changes
the one word. -/
theorem setWordAt_spec (bs bs' : List Block) (b i : Nat) (w : Word) (h : setWordAt bs b i w = some bs') :
    b < bs.length ∧ bs'.length = bs.length ∧
      ∀ c j, wordAt bs' c j = if c = b ∧ i = j ∧ i < 64 then some w else wordAt bs c j := by
  by_cases hb : b < bs.length
  · rw [setWordAt_eq_some bs b i w hb] at h
    cases h
    refine ⟨hb, by simp, fun c j => ?_⟩
    unfold wordAt
    rw [List.getElem?_set]
    by_cases hc : b = c
    · subst hc
      simp [hb, blockGet_blockSet]
    · simp [hc, Ne.symm hc]
  · rw [setWordAt_eq_none bs b i w (by omega)] at h
    cases h

/-- Replacing a block by itself with one word written changes that word only. -/
theorem wordAt_set_blockSet (bs : List Block) (b i : Nat) (w : Word) (cur : Block) (h : bs[b]? = some cur)
    (c j : Nat) :
    wordAt (bs.set b (blockSet cur i w)) c j = if c = b ∧ i = j ∧ i < 64 then some w else wordAt bs c j := by
  obtain ⟨hb, rfl⟩ := List.getElem?_eq_some_iff.mp h
  exact (setWordAt_spec bs _ b i w (setWordAt_eq_some bs b i w hb)).2.2 c j

/-- Everything the loop of PAD_PACK does when the blocks are there: words j to j + n - 1 of the padded stream land in
their places and no other word changes. -/
theorem packWords_spec (input : Memory) (len n j : Nat) (bs : List Block) (h : j + n ≤ 16 * bs.length) :
    ∃ bs', packWords input len n j bs = some bs' ∧ bs'.length = bs.length ∧
      ∀ b i, i < 64 → wordAt bs' b i =
        if i < 16 ∧ j ≤ 16 * b + i ∧ 16 * b + i < j + n then some (paddedWord input len (16 * b + i))
        else wordAt bs b i := by
  induction n generalizing j bs with
  | zero =>
    refine ⟨bs, rfl, rfl, fun b i _ => ?_⟩
    rw [if_neg (by omega)]
  | succ n ih =>
    have hb : j / 16 < bs.length := by omega
    obtain ⟨bs1, h1⟩ : ∃ bs1, setWordAt bs (j / 16) (j % 16) (paddedWord input len j) = some bs1 :=
      ⟨_, setWordAt_eq_some _ _ _ _ hb⟩
    obtain ⟨-, hlen, hw⟩ := setWordAt_spec _ _ _ _ _ h1
    obtain ⟨bs', h2, hlen', hw'⟩ := ih (j + 1) bs1 (by omega)
    refine ⟨bs', by simp only [packWords, h1, h2], by omega, fun b i hi => ?_⟩
    rw [hw' b i hi, hw b i]
    by_cases hj : i < 16 ∧ 16 * b + i = j
    · rw [if_neg (by omega), if_pos (by omega), if_pos (by omega), hj.2]
    · by_cases hin : i < 16 ∧ j + 1 ≤ 16 * b + i ∧ 16 * b + i < j + 1 + n
      · rw [if_pos hin, if_pos (by omega)]
      · rw [if_neg hin, if_neg (by omega), if_neg (by omega)]

/-- Everything PAD_LEN's write does when the final block is there. -/
theorem writeLength_spec (lb : U64) (n : Nat) (bs : List Block) (hn : 1 ≤ n) (h : n ≤ bs.length) :
    ∃ bs', writeLength lb n bs = some bs' ∧ bs'.length = bs.length ∧
      ∀ b i, wordAt bs' b i =
        if b + 1 = n ∧ i = 14 then some (highWord lb)
        else if b + 1 = n ∧ i = 15 then some (lowWord lb)
        else wordAt bs b i := by
  obtain ⟨m, rfl⟩ : ∃ m, n = m + 1 := ⟨n - 1, by omega⟩
  have h1 := setWordAt_eq_some bs m 14 (highWord lb) (by omega)
  obtain ⟨-, hl1, hw1⟩ := setWordAt_spec _ _ _ _ _ h1
  have h2 := setWordAt_eq_some (bs.set m (blockSet bs[m] 14 (highWord lb))) m 15 (lowWord lb) (by simp; omega)
  obtain ⟨-, hl2, hw2⟩ := setWordAt_spec _ _ _ _ _ h2
  refine ⟨_, by simp only [writeLength, h1]; exact h2, by omega, fun b i => ?_⟩
  rw [hw2, hw1]
  by_cases hb : b = m
  · subst hb
    by_cases h14 : i = 14
    · subst h14; simp
    · by_cases h15 : i = 15
      · subst h15; simp
      · simp [h14, h15, Ne.symm h14, Ne.symm h15]
  · simp [hb]

end Sys2Proof.Machine
end

