-- ==== Sys2Proof/Laws/Digest.lean ====
section
/-!
SUPPORT. The recursion of the message schedule (spec/42_schedule.md R162), and the arithmetic of the padder
(spec/41_padder.md R131, R132, R138).
-/

namespace Sys2Proof.Machine

@[simp] theorem scheduleList_length (m : Nat → Word) (n : Nat) : (scheduleList m n).length = n := by
  induction n with
  | zero => rfl
  | succ n ih => simp [scheduleList, ih]

/-- Later words do not change earlier ones. -/
theorem scheduleList_getD (m : Nat → Word) (n k : Nat) (h : k < n) : (scheduleList m n).getD k 0 = schedule m k := by
  induction n with
  | zero => omega
  | succ n ih =>
    by_cases hk : k = n
    · subst hk; rfl
    · have hlt : k < n := by omega
      rw [← ih hlt]
      simp only [scheduleList, List.getD_eq_getElem?_getD]
      rw [List.getElem?_append_left (by simpa using hlt)]

/-- The recursion that spec/42_schedule.md R162 states. -/
theorem schedule_eq (m : Nat → Word) (n : Nat) :
    schedule m n =
      if n < 16 then m n
      else schedWord (schedule m (n - 2)) (schedule m (n - 7)) (schedule m (n - 15)) (schedule m (n - 16)) := by
  conv_lhs => unfold schedule
  simp only [scheduleList, List.getD_eq_getElem?_getD]
  rw [List.getElem?_append_right (by simp)]
  simp only [scheduleList_length, Nat.sub_self, List.getElem?_cons_zero, Option.getD_some]
  split
  · rfl
  · simp only [← List.getD_eq_getElem?_getD]
    rw [scheduleList_getD m n (n - 2) (by omega), scheduleList_getD m n (n - 7) (by omega),
      scheduleList_getD m n (n - 15) (by omega), scheduleList_getD m n (n - 16) (by omega)]

/-- The closed form of the block count (spec/41_padder.md R132). -/
theorem blockCount_eq (len : Nat) : blockCount len = (len + 8) / 64 + 1 := by
  unfold blockCount; omega

theorem one_le_blockCount (len : Nat) : 1 ≤ blockCount len := by
  unfold blockCount; omega

/-- PAD_TERM's sum does not wrap for an accepted length (spec/41_padder.md R130). -/
theorem toNat_succ_of_accepted (len : U64) (h : len.toNat < 2 ^ 61) : (len + 1).toNat = len.toNat + 1 := by
  have : (1 : U64).toNat = 1 := rfl
  rw [BitVec.toNat_add, this, Nat.mod_eq_of_lt (by omega)]

/-- PAD_ALIGN's product does not wrap for an accepted length (spec/41_padder.md R131). -/
theorem toNat_alignedLength (p : U64) (h : p.toNat ≤ 2 ^ 61) : (alignedLength p).toNat = 4 * ((p.toNat + 3) / 4) := by
  unfold alignedLength
  rw [BitVec.toNat_ofNat, Nat.mod_eq_of_lt (by omega)]

end Sys2Proof.Machine
end

