-- ==== Sys2Proof/Laws/State.lean ====
section
/-!
SUPPORT. One lemma per field for each named update of State: what the update writes, and that it leaves every other
field alone.
-/

namespace Sys2Proof.Machine

/-! `faultEntry` (spec/60_exceptions.md R240) -/

@[simp] theorem faultEntry_cfg (c : FaultCode) (s : State) : (faultEntry c s).cfg = s.cfg := rfl
@[simp] theorem faultEntry_phase (c : FaultCode) (s : State) : (faultEntry c s).phase = .fault := rfl
@[simp] theorem faultEntry_faultCode (c : FaultCode) (s : State) : (faultEntry c s).faultCode = c := rfl
@[simp] theorem faultEntry_inlen (c : FaultCode) (s : State) : (faultEntry c s).inlen = s.inlen := rfl
@[simp] theorem faultEntry_plen (c : FaultCode) (s : State) : (faultEntry c s).plen = none := rfl
@[simp] theorem faultEntry_nblk (c : FaultCode) (s : State) : (faultEntry c s).nblk = none := rfl
@[simp] theorem faultEntry_blocks (c : FaultCode) (s : State) : (faultEntry c s).blocks = none := rfl
@[simp] theorem faultEntry_h (c : FaultCode) (s : State) : (faultEntry c s).h = noWords8 := rfl
@[simp] theorem faultEntry_wv (c : FaultCode) (s : State) : (faultEntry c s).wv = noWords8 := rfl
@[simp] theorem faultEntry_mop (c : FaultCode) (s : State) : (faultEntry c s).mop = none := rfl
@[simp] theorem faultEntry_blk (c : FaultCode) (s : State) : (faultEntry c s).blk = none := rfl
@[simp] theorem faultEntry_input (c : FaultCode) (s : State) : (faultEntry c s).input = s.input := rfl
@[simp] theorem faultEntry_refused (c : FaultCode) (s : State) : (faultEntry c s).refused = s.refused := rfl
@[simp] theorem faultEntry_agenda (c : FaultCode) (s : State) : (faultEntry c s).agenda = s.agenda := rfl
@[simp] theorem faultEntry_reply (c : FaultCode) (s : State) : (faultEntry c s).reply = s.reply := rfl

/-! `resetEngine` (spec/70_reset_and_hazards.md R270) -/

@[simp] theorem resetEngine_cfg (s : State) : (resetEngine s).cfg = s.cfg := rfl
@[simp] theorem resetEngine_phase (s : State) : (resetEngine s).phase = .idle := rfl
@[simp] theorem resetEngine_faultCode (s : State) : (resetEngine s).faultCode = .none := rfl
@[simp] theorem resetEngine_inlen (s : State) : (resetEngine s).inlen = none := rfl
@[simp] theorem resetEngine_plen (s : State) : (resetEngine s).plen = none := rfl
@[simp] theorem resetEngine_nblk (s : State) : (resetEngine s).nblk = none := rfl
@[simp] theorem resetEngine_blocks (s : State) : (resetEngine s).blocks = none := rfl
@[simp] theorem resetEngine_h (s : State) : (resetEngine s).h = noWords8 := rfl
@[simp] theorem resetEngine_wv (s : State) : (resetEngine s).wv = noWords8 := rfl
@[simp] theorem resetEngine_mop (s : State) : (resetEngine s).mop = none := rfl
@[simp] theorem resetEngine_blk (s : State) : (resetEngine s).blk = none := rfl
@[simp] theorem resetEngine_input (s : State) : (resetEngine s).input = s.input := rfl
@[simp] theorem resetEngine_refused (s : State) : (resetEngine s).refused = s.refused := rfl
@[simp] theorem resetEngine_agenda (s : State) : (resetEngine s).agenda = s.agenda := rfl
@[simp] theorem resetEngine_reply (s : State) : (resetEngine s).reply = s.reply := rfl

/-! `advance` (spec/44_host_and_sequencer.md R206, R207) -/

@[simp] theorem advance_cfg (i : Instr) (s : State) : (advance i s).cfg = s.cfg := rfl
@[simp] theorem advance_phase (i : Instr) (s : State) : (advance i s).phase = s.phase := rfl
@[simp] theorem advance_faultCode (i : Instr) (s : State) : (advance i s).faultCode = s.faultCode := rfl
@[simp] theorem advance_inlen (i : Instr) (s : State) : (advance i s).inlen = s.inlen := rfl
@[simp] theorem advance_plen (i : Instr) (s : State) : (advance i s).plen = s.plen := rfl
@[simp] theorem advance_nblk (i : Instr) (s : State) : (advance i s).nblk = s.nblk := rfl
@[simp] theorem advance_blocks (i : Instr) (s : State) : (advance i s).blocks = s.blocks := rfl
@[simp] theorem advance_h (i : Instr) (s : State) : (advance i s).h = s.h := rfl
@[simp] theorem advance_wv (i : Instr) (s : State) : (advance i s).wv = s.wv := rfl
@[simp] theorem advance_mop (i : Instr) (s : State) : (advance i s).mop = (nextOp i).map encode := rfl
@[simp] theorem advance_blk (i : Instr) (s : State) : (advance i s).blk = s.blk := rfl
@[simp] theorem advance_input (i : Instr) (s : State) : (advance i s).input = s.input := rfl
@[simp] theorem advance_refused (i : Instr) (s : State) : (advance i s).refused = s.refused := rfl
@[simp] theorem advance_agenda (i : Instr) (s : State) : (advance i s).agenda = s.agenda := rfl
@[simp] theorem advance_reply (i : Instr) (s : State) : (advance i s).reply = s.reply := rfl

/-! `goTo` (spec/10_state.md R31) -/

@[simp] theorem goTo_cfg (i : Instr) (s : State) : (goTo i s).cfg = s.cfg := rfl
@[simp] theorem goTo_phase (i : Instr) (s : State) : (goTo i s).phase = s.phase := rfl
@[simp] theorem goTo_faultCode (i : Instr) (s : State) : (goTo i s).faultCode = s.faultCode := rfl
@[simp] theorem goTo_inlen (i : Instr) (s : State) : (goTo i s).inlen = s.inlen := rfl
@[simp] theorem goTo_plen (i : Instr) (s : State) : (goTo i s).plen = s.plen := rfl
@[simp] theorem goTo_nblk (i : Instr) (s : State) : (goTo i s).nblk = s.nblk := rfl
@[simp] theorem goTo_blocks (i : Instr) (s : State) : (goTo i s).blocks = s.blocks := rfl
@[simp] theorem goTo_h (i : Instr) (s : State) : (goTo i s).h = s.h := rfl
@[simp] theorem goTo_wv (i : Instr) (s : State) : (goTo i s).wv = s.wv := rfl
@[simp] theorem goTo_mop (i : Instr) (s : State) : (goTo i s).mop = some (encode i) := rfl
@[simp] theorem goTo_blk (i : Instr) (s : State) : (goTo i s).blk = s.blk := rfl
@[simp] theorem goTo_input (i : Instr) (s : State) : (goTo i s).input = s.input := rfl
@[simp] theorem goTo_refused (i : Instr) (s : State) : (goTo i s).refused = s.refused := rfl
@[simp] theorem goTo_agenda (i : Instr) (s : State) : (goTo i s).agenda = s.agenda := rfl
@[simp] theorem goTo_reply (i : Instr) (s : State) : (goTo i s).reply = s.reply := rfl

/-! `afterTurn` -/

@[simp] theorem afterTurn_cfg (s : State) : (afterTurn s).cfg = s.cfg := rfl
@[simp] theorem afterTurn_phase (s : State) : (afterTurn s).phase = s.phase := rfl
@[simp] theorem afterTurn_faultCode (s : State) : (afterTurn s).faultCode = s.faultCode := rfl
@[simp] theorem afterTurn_inlen (s : State) : (afterTurn s).inlen = s.inlen := rfl
@[simp] theorem afterTurn_plen (s : State) : (afterTurn s).plen = s.plen := rfl
@[simp] theorem afterTurn_nblk (s : State) : (afterTurn s).nblk = s.nblk := rfl
@[simp] theorem afterTurn_blocks (s : State) : (afterTurn s).blocks = s.blocks := rfl
@[simp] theorem afterTurn_h (s : State) : (afterTurn s).h = s.h := rfl
@[simp] theorem afterTurn_wv (s : State) : (afterTurn s).wv = s.wv := rfl
@[simp] theorem afterTurn_mop (s : State) : (afterTurn s).mop = s.mop := rfl
@[simp] theorem afterTurn_blk (s : State) : (afterTurn s).blk = s.blk := rfl
@[simp] theorem afterTurn_input (s : State) : (afterTurn s).input = s.input := rfl
@[simp] theorem afterTurn_refused (s : State) : (afterTurn s).refused = s.refused := rfl
@[simp] theorem afterTurn_agenda (s : State) : (afterTurn s).agenda = s.agenda.tail := rfl
@[simp] theorem afterTurn_reply (s : State) : (afterTurn s).reply = s.reply := rfl

/-! `State.resetWith` (spec/10_state.md R37) -/

@[simp] theorem resetWith_cfg (cfg : Config) : (State.resetWith cfg).cfg = cfg := rfl
@[simp] theorem resetWith_phase (cfg : Config) : (State.resetWith cfg).phase = .idle := rfl
@[simp] theorem resetWith_faultCode (cfg : Config) : (State.resetWith cfg).faultCode = .none := rfl
@[simp] theorem resetWith_inlen (cfg : Config) : (State.resetWith cfg).inlen = none := rfl
@[simp] theorem resetWith_plen (cfg : Config) : (State.resetWith cfg).plen = none := rfl
@[simp] theorem resetWith_nblk (cfg : Config) : (State.resetWith cfg).nblk = none := rfl
@[simp] theorem resetWith_blocks (cfg : Config) : (State.resetWith cfg).blocks = none := rfl
@[simp] theorem resetWith_h (cfg : Config) : (State.resetWith cfg).h = noWords8 := rfl
@[simp] theorem resetWith_wv (cfg : Config) : (State.resetWith cfg).wv = noWords8 := rfl
@[simp] theorem resetWith_mop (cfg : Config) : (State.resetWith cfg).mop = none := rfl
@[simp] theorem resetWith_blk (cfg : Config) : (State.resetWith cfg).blk = none := rfl
@[simp] theorem resetWith_input (cfg : Config) : (State.resetWith cfg).input = [] := rfl
@[simp] theorem resetWith_refused (cfg : Config) : (State.resetWith cfg).refused = false := rfl
@[simp] theorem resetWith_agenda (cfg : Config) : (State.resetWith cfg).agenda = [] := rfl
@[simp] theorem resetWith_reply (cfg : Config) : (State.resetWith cfg).reply = .nothing := rfl

end Sys2Proof.Machine
end

