-- ==== Sys2Proof/Laws/Ops.lean ====
section
/-!
SUPPORT. What each shared operation can do, once: reading an element, reading the current block, reading eight words
(spec/10_state.md R39, spec/60_exceptions.md R240, R243).
-/

namespace Sys2Proof.Machine

@[simp] theorem withValue_some {α : Type} (x : α) (s : State) (k : α → Result) : withValue (some x) s k = k x := rfl

@[simp] theorem withValue_none {α : Type} (s : State) (k : α → Result) :
    withValue none s k = raise .unwrittenRead s := rfl

/-- If reading an element answers a next state, either it held a value and the rest answered it, or it held none and
the next state is the fault entry. -/
theorem withValue_next {α : Type} (v : Option α) (s t : State) (k : α → Result) (h : withValue v s k = .next t) :
    (∃ x, v = some x ∧ k x = .next t) ∨ (v = none ∧ t = faultEntry .unwrittenRead s) := by
  cases v with
  | some x => exact .inl ⟨x, rfl, h⟩
  | none =>
    simp only [withValue_none, raise] at h
    cases h
    exact .inr ⟨rfl, rfl⟩

/-- The current block, when BLK and BLOCKS hold values and the block exists. -/
theorem withCurrentBlock_eq (s : State) (k : Nat → List Block → Block → Result) (b : Nat) (bs : List Block)
    (cur : Block) (hb : s.blk = some b) (hbs : s.blocks = some bs) (hc : bs[b]? = some cur) :
    withCurrentBlock s k = k b bs cur := by
  simp [withCurrentBlock, hb, hbs, hc]

/-- If reading the current block answers a next state, either it is there and the rest answered it, or an element
held no value and the next state is the fault entry. -/
theorem withCurrentBlock_next (s t : State) (k : Nat → List Block → Block → Result)
    (h : withCurrentBlock s k = .next t) :
    (∃ b bs cur, s.blk = some b ∧ s.blocks = some bs ∧ bs[b]? = some cur ∧ k b bs cur = .next t) ∨
      t = faultEntry .unwrittenRead s := by
  unfold withCurrentBlock at h
  rcases withValue_next _ _ _ _ h with ⟨b, hb, h⟩ | ⟨-, h⟩
  · rcases withValue_next _ _ _ _ h with ⟨bs, hbs, h⟩ | ⟨-, h⟩
    · cases hc : bs[b]? with
      | some cur => simp only [hc] at h; exact .inl ⟨b, bs, cur, hb, hbs, hc, h⟩
      | none => simp [hc] at h
    · exact .inr h
  · exact .inr h

@[simp] theorem readWords8_someWords8 (v : Words8 Word) : readWords8 (someWords8 v) = some v := rfl

/-- Eight elements read as the words v exactly when they hold the words v. -/
theorem readWords8_eq_some (x : Words8 (Option Word)) (v : Words8 Word) :
    readWords8 x = some v ↔ x = someWords8 v := by
  constructor
  · intro h
    unfold readWords8 at h
    split at h
    · cases h; rfl
    · cases h
  · rintro rfl; rfl

@[simp] theorem readWords8_noWords8 : readWords8 noWords8 = none := rfl

theorem words8Get_someWords8 (v : Words8 Word) (j : BitVec 3) : words8Get (someWords8 v) j = some (words8Get v j) := by
  unfold words8Get
  split <;> rfl

end Sys2Proof.Machine
end

