-- ==== Sys2Proof/Laws/Exec.lean ====
section
/-!
SUPPORT. One inversion lemma per meaning: if it answers a next state, the next state is a fault entry with a code other
than NONE, or the micro-operation's own effect with what it read (spec/41_padder.md, 42_schedule.md, 43_compression.md,
spec/44_host_and_sequencer.md R210; spec/60_exceptions.md R240). For the host's actions, a refusal or the effect
(R200 to R205, R250).
-/

namespace Sys2Proof.Machine

/-- The fault entry with some code other than NONE. -/
def faulted (s t : State) : Prop := ∃ c, c ≠ .none ∧ t = faultEntry c s

theorem faulted_raise {c : FaultCode} {s t : State} (hc : c ≠ .none) (h : raise c s = .next t) : faulted s t := by
  cases h; exact ⟨c, hc, rfl⟩

/-- Reading an element: what follows ran on its value, or the micro-operation faulted. -/
theorem withValue_cases {α : Type} {v : Option α} {s t : State} {k : α → Result} (h : withValue v s k = .next t) :
    faulted s t ∨ ∃ x, v = some x ∧ k x = .next t := by
  rcases withValue_next _ _ _ _ h with h | ⟨-, rfl⟩
  · exact .inr h
  · exact .inl ⟨_, by decide, rfl⟩

/-- Reading the current block: what follows ran on it, or the micro-operation faulted. -/
theorem withCurrentBlock_cases {s t : State} {k : Nat → List Block → Block → Result}
    (h : withCurrentBlock s k = .next t) :
    faulted s t ∨ ∃ b bs cur, s.blk = some b ∧ s.blocks = some bs ∧ bs[b]? = some cur ∧ k b bs cur = .next t := by
  rcases withCurrentBlock_next _ _ _ h with h | rfl
  · exact .inr h
  · exact .inl ⟨_, by decide, rfl⟩

theorem execPadTerm_next {s t : State} (h : execPadTerm s = .next t) :
    faulted s t ∨ ∃ len, s.inlen = some len ∧ len.toNat ≤ s.cfg.maxInputBytes.toNat ∧
      t = advance .padTerm { s with plen := some (len + 1) } := by
  rcases withValue_cases h with h | ⟨len, hl, h⟩
  · exact .inl h
  split at h
  · exact .inl (faulted_raise (by decide) h)
  · cases h; exact .inr ⟨len, hl, by omega, rfl⟩

theorem execPadAlign_next {s t : State} (h : execPadAlign s = .next t) :
    faulted s t ∨ ∃ p, s.plen = some p ∧ t = advance .padAlign { s with plen := some (alignedLength p) } := by
  rcases withValue_cases h with h | ⟨p, hp, h⟩
  · exact .inl h
  cases h; exact .inr ⟨p, hp, rfl⟩

theorem execPadAlloc_next {s t : State} (h : execPadAlloc s = .next t) :
    faulted s t ∨ ∃ len, s.inlen = some len ∧ blockCount len.toNat ≤ s.cfg.maxBlocks ∧
      t = advance .padAlloc
        { s with
          nblk := some (blockCount len.toNat)
          blocks := some (List.replicate (blockCount len.toNat) freshBlock) } := by
  rcases withValue_cases h with h | ⟨len, hl, h⟩
  · exact .inl h
  split at h
  · exact .inl (faulted_raise (by decide) h)
  · cases h; exact .inr ⟨len, hl, by omega, rfl⟩

theorem execPadPack_next {s t : State} (h : execPadPack s = .next t) :
    faulted s t ∨ ∃ len p bs bs', s.inlen = some len ∧ s.plen = some p ∧ s.blocks = some bs ∧
      packWords s.input len.toNat (p.toNat / 4) 0 bs = some bs' ∧ t = advance .padPack { s with blocks := some bs' } := by
  rcases withValue_cases h with h | ⟨len, hl, h⟩
  · exact .inl h
  rcases withValue_cases h with h | ⟨p, hp, h⟩
  · exact .inl h
  split at h
  · cases h
  · rename_i bs hbs
    split at h
    · rename_i bs' hbs'
      cases h; exact .inr ⟨len, p, bs, bs', hl, hp, hbs, hbs', rfl⟩
    · cases h

theorem execPadLen_next {s t : State} (h : execPadLen s = .next t) :
    faulted s t ∨ ∃ len n bs bs', s.inlen = some len ∧ s.nblk = some n ∧ s.blocks = some bs ∧
      writeLength (bitLength len) n bs = some bs' ∧ t = advance .padLen { s with blocks := some bs' } := by
  rcases withValue_cases h with h | ⟨len, hl, h⟩
  · exact .inl h
  rcases withValue_cases h with h | ⟨n, hn, h⟩
  · exact .inl h
  split at h
  · cases h
  · rename_i bs hbs
    split at h
    · rename_i bs' hbs'
      cases h; exact .inr ⟨len, n, bs, bs', hl, hn, hbs, hbs', rfl⟩
    · cases h

theorem execSched_next {i : BitVec 6} {s t : State} (h : execSched i s = .next t) :
    faulted s t ∨ ∃ b bs cur x2 x7 x15 x16, 16 ≤ i.toNat ∧ s.blk = some b ∧ s.blocks = some bs ∧
      bs[b]? = some cur ∧ blockGet cur (i.toNat - 2) = some x2 ∧ blockGet cur (i.toNat - 7) = some x7 ∧
      blockGet cur (i.toNat - 15) = some x15 ∧ blockGet cur (i.toNat - 16) = some x16 ∧
      t = advance (.sched i) { s with blocks := some (bs.set b (blockSet cur i.toNat (schedWord x2 x7 x15 x16))) } := by
  unfold execSched at h
  split at h
  · exact .inl (faulted_raise (by decide) h)
  rcases withCurrentBlock_cases h with h | ⟨b, bs, cur, hb, hbs, hc, h⟩
  · exact .inl h
  rcases withValue_cases h with h | ⟨x2, h2, h⟩
  · exact .inl h
  rcases withValue_cases h with h | ⟨x7, h7, h⟩
  · exact .inl h
  rcases withValue_cases h with h | ⟨x15, h15, h⟩
  · exact .inl h
  rcases withValue_cases h with h | ⟨x16, h16, h⟩
  · exact .inl h
  cases h
  exact .inr ⟨b, bs, cur, x2, x7, x15, x16, by omega, hb, hbs, hc, h2, h7, h15, h16, rfl⟩

theorem execInitWork_next {s t : State} (h : execInitWork s = .next t) :
    faulted s t ∨ ∃ d, s.h = someWords8 d ∧ t = advance .initWork { s with wv := someWords8 d } := by
  rcases withValue_cases h with h | ⟨d, hd, h⟩
  · exact .inl h
  cases h; exact .inr ⟨d, (readWords8_eq_some _ _).mp hd, rfl⟩

theorem execRound_next {i : BitVec 6} {s t : State} (h : execRound i s = .next t) :
    faulted s t ∨ ∃ b bs cur w v, s.blk = some b ∧ s.blocks = some bs ∧ bs[b]? = some cur ∧
      blockGet cur i.toNat = some w ∧ s.wv = someWords8 v ∧
      t = advance (.round i) { s with wv := someWords8 (roundWords v (romK i.toNat) w) } := by
  rcases withCurrentBlock_cases h with h | ⟨b, bs, cur, hb, hbs, hc, h⟩
  · exact .inl h
  rcases withValue_cases h with h | ⟨w, hw, h⟩
  · exact .inl h
  rcases withValue_cases h with h | ⟨v, hv, h⟩
  · exact .inl h
  cases h; exact .inr ⟨b, bs, cur, w, v, hb, hbs, hc, hw, (readWords8_eq_some _ _).mp hv, rfl⟩

theorem execAddState_next {s t : State} (h : execAddState s = .next t) :
    faulted s t ∨ ∃ x y b n, s.h = someWords8 x ∧ s.wv = someWords8 y ∧ s.blk = some b ∧ s.nblk = some n ∧
      ((b + 1 < n ∧ t = goTo (.sched 16) { s with h := someWords8 (addWords x y), blk := some (b + 1) }) ∨
        (b + 1 = n ∧ t = goTo .finish { s with h := someWords8 (addWords x y) })) := by
  rcases withValue_cases h with h | ⟨x, hx, h⟩
  · exact .inl h
  rcases withValue_cases h with h | ⟨y, hy, h⟩
  · exact .inl h
  rcases withValue_cases h with h | ⟨b, hb, h⟩
  · exact .inl h
  rcases withValue_cases h with h | ⟨n, hn, h⟩
  · exact .inl h
  have hx := (readWords8_eq_some _ _).mp hx
  have hy := (readWords8_eq_some _ _).mp hy
  split at h
  · rename_i hlt
    cases h; exact .inr ⟨x, y, b, n, hx, hy, hb, hn, .inl ⟨hlt, rfl⟩⟩
  · split at h
    · rename_i heq
      cases h; exact .inr ⟨x, y, b, n, hx, hy, hb, hn, .inr ⟨heq, rfl⟩⟩
    · cases h

/-- Refusing always answers, with the REFUSED mark set. -/
theorem refuse_eq (r : HostRefusal) (s : State) : refuse r s = .next (afterRefusal r s) := rfl

/-- READ_DIGEST always answers: a refusal, or H[j] in DONE. -/
theorem execReadDigest_next {j : BitVec 3} {s t : State} (h : execReadDigest j s = .next t) :
    t = afterRefusal .digestNotReady s ∨
      (s.phase = .done ∧ ∃ w, words8Get s.h j = some w ∧ t = { s with reply := .word w }) := by
  unfold execReadDigest at h
  split at h
  · cases h; exact .inl rfl
  · rename_i hp
    split at h
    · rename_i w hw
      cases h; exact .inr ⟨by simpa using hp, w, hw, rfl⟩
    · cases h; exact .inl rfl

end Sys2Proof.Machine
end

