-- ==== Sys2Proof/Laws/Memory.lean ====
section
/-!
SUPPORT. The input space: a read after a write, and that every write keeps the canonical form (spec/20_memory.md R50,
R51).
-/

namespace Sys2Proof.Machine

/-- Every address of a canonical list is at or above its bound, so an address below it is unlisted. -/
theorem memRead_below (m : Memory) (lo k : Nat) (hw : memWfFrom lo m = true) (hk : k < lo) :
    memRead m k = unwrittenInByte := by
  induction m generalizing lo with
  | nil => rfl
  | cons c rest ih =>
    obtain ⟨a, x⟩ := c
    simp only [memWfFrom, Bool.and_eq_true, decide_eq_true_eq] at hw
    simp only [memRead]
    rw [if_neg (by omega), ih (a + 1) hw.2 (by omega)]

theorem memWfFrom_mono (m : Memory) (lo lo' : Nat) (h : lo' ≤ lo) (hw : memWfFrom lo m = true) :
    memWfFrom lo' m = true := by
  cases m with
  | nil => rfl
  | cons c rest =>
    obtain ⟨a, x⟩ := c
    simp only [memWfFrom, Bool.and_eq_true, decide_eq_true_eq] at hw ⊢
    exact ⟨⟨⟨by omega, hw.1.1.2⟩, hw.1.2⟩, hw.2⟩

theorem memWfFrom_memCons (m : Memory) (lo k : Nat) (v : Byte) (hlo : lo ≤ k) (hk : k < 2 ^ 64)
    (hw : memWfFrom (k + 1) m = true) : memWfFrom lo (memCons k v m) = true := by
  unfold memCons
  split
  · exact memWfFrom_mono m _ _ (by omega) hw
  · simp only [memWfFrom, Bool.and_eq_true, decide_eq_true_eq]
    exact ⟨⟨⟨hlo, hk⟩, by assumption⟩, hw⟩

theorem memRead_memCons_self (m : Memory) (k : Nat) (v : Byte) (hw : memWfFrom (k + 1) m = true) :
    memRead (memCons k v m) k = v := by
  unfold memCons
  split
  · rw [memRead_below m (k + 1) k hw (by omega)]; exact Eq.symm ‹_›
  · simp [memRead]

theorem memRead_memCons_other (m : Memory) (k j : Nat) (v : Byte) (hne : j ≠ k) :
    memRead (memCons k v m) j = memRead m j := by
  unfold memCons
  split
  · rfl
  · simp [memRead, Ne.symm hne]

/-- A write keeps the canonical form. -/
theorem memWfFrom_memWrite (m : Memory) (lo k : Nat) (v : Byte) (hlo : lo ≤ k) (hk : k < 2 ^ 64)
    (hw : memWfFrom lo m = true) : memWfFrom lo (memWrite m k v) = true := by
  induction m generalizing lo with
  | nil => exact memWfFrom_memCons [] lo k v hlo hk rfl
  | cons c rest ih =>
    obtain ⟨a, x⟩ := c
    have hw' := hw
    simp only [memWfFrom, Bool.and_eq_true, decide_eq_true_eq] at hw
    simp only [memWrite]
    split
    · refine memWfFrom_memCons _ lo k v hlo hk ?_
      simp only [memWfFrom, Bool.and_eq_true, decide_eq_true_eq]
      exact ⟨⟨⟨by omega, hw.1.1.2⟩, hw.1.2⟩, hw.2⟩
    · split
      · subst_vars
        exact memWfFrom_memCons rest lo _ v hlo hk hw.2
      · simp only [memWfFrom, Bool.and_eq_true, decide_eq_true_eq]
        exact ⟨hw.1, ih (a + 1) (by omega) hw.2⟩

theorem memWf_memWrite (m : Memory) (k : Nat) (v : Byte) (hk : k < 2 ^ 64) (hw : memWf m = true) :
    memWf (memWrite m k v) = true :=
  memWfFrom_memWrite m 0 k v (Nat.zero_le _) hk hw

/-- A read at the address written gives the byte written. -/
theorem memRead_memWrite_self (m : Memory) (lo k : Nat) (v : Byte) (hw : memWfFrom lo m = true) :
    memRead (memWrite m k v) k = v := by
  induction m generalizing lo with
  | nil => exact memRead_memCons_self [] k v rfl
  | cons c rest ih =>
    obtain ⟨a, x⟩ := c
    have hw' := hw
    simp only [memWfFrom, Bool.and_eq_true, decide_eq_true_eq] at hw
    simp only [memWrite]
    split
    · refine memRead_memCons_self _ k v ?_
      simp only [memWfFrom, Bool.and_eq_true, decide_eq_true_eq]
      exact ⟨⟨⟨by omega, hw.1.1.2⟩, hw.1.2⟩, hw.2⟩
    · split
      · subst_vars
        exact memRead_memCons_self rest _ v hw.2
      · simp only [memRead]
        rw [if_neg (by omega)]
        exact ih (a + 1) hw.2

/-- A read at any other address gives what it gave before. -/
theorem memRead_memWrite_other (m : Memory) (k j : Nat) (v : Byte) (hne : j ≠ k) :
    memRead (memWrite m k v) j = memRead m j := by
  induction m with
  | nil => exact memRead_memCons_other [] k j v hne
  | cons c rest ih =>
    obtain ⟨a, x⟩ := c
    simp only [memWrite]
    split
    · exact memRead_memCons_other _ k j v hne
    · split
      · subst_vars
        rw [memRead_memCons_other rest _ j v hne]
        simp [memRead, Ne.symm hne]
      · simp only [memRead, ih]

end Sys2Proof.Machine
end

