-- ==== Sys2Proof/Laws/PerInstr.lean ====
section
/-!
SUPPORT. Per-instruction laws. Family `RowMatch`: the word of a well-formed instruction has RSV = 00 and the code of
its row of spec/opcode_table.json, and agrees with the row's match under the row's mask (spec/30_encoding.md R80, R82,
R86, R87).
-/

namespace Sys2Proof.Laws.RowMatch

/-- The mask and the match of the instruction's row in spec/opcode_table.json. -/
def row : Instr → OpWord × OpWord
  | .padTerm => (0xFFFF, 0x0010)
  | .padAlign => (0xFFFF, 0x0011)
  | .padAlloc => (0xFFFF, 0x0012)
  | .padPack => (0xFFFF, 0x0013)
  | .padLen => (0xFFFF, 0x0014)
  | .loadIv => (0xFFFF, 0x0020)
  | .sched _ => (0xC0FF, 0x0030)
  | .initWork => (0xFFFF, 0x0040)
  | .round _ => (0xC0FF, 0x0041)
  | .addState => (0xFFFF, 0x0042)
  | .finish => (0xFFFF, 0x0050)
  | .hash _ => (0xFFFF, 0x0001)
  | .readStatus => (0xFFFF, 0x0002)
  | .readDigest _ => (0xF8FF, 0x0003)
  | .reset => (0xFFFF, 0x000F)

/-- The word agrees with its row, its reserved bits are 00, and its code is the row's. -/
def Statement (i : Instr) : Prop :=
  encode i &&& (row i).1 = (row i).2 ∧ reservedField (encode i) = 0 ∧ codeField (encode i) = codeField (row i).2

theorem padTerm : Statement .padTerm := by unfold Statement; decide
theorem padAlign : Statement .padAlign := by unfold Statement; decide
theorem padAlloc : Statement .padAlloc := by unfold Statement; decide
theorem padPack : Statement .padPack := by unfold Statement; decide
theorem padLen : Statement .padLen := by unfold Statement; decide
theorem loadIv : Statement .loadIv := by unfold Statement; decide
theorem sched (i : BitVec 6) : Statement (.sched i) := by unfold Statement; revert i; decide
theorem initWork : Statement .initWork := by unfold Statement; decide
theorem round (i : BitVec 6) : Statement (.round i) := by unfold Statement; revert i; decide
theorem addState : Statement .addState := by unfold Statement; decide
theorem finish : Statement .finish := by unfold Statement; decide
theorem hash (len : U64) : Statement (.hash len) := by
  have key : wordOf 0 0x01 &&& 0xFFFF#16 = 0x0001#16 ∧ reservedField (wordOf 0 0x01) = 0 ∧
      codeField (wordOf 0 0x01) = codeField 0x0001#16 := by decide
  exact key
theorem readStatus : Statement .readStatus := by unfold Statement; decide
theorem readDigest (j : BitVec 3) : Statement (.readDigest j) := by unfold Statement; revert j; decide
theorem reset : Statement .reset := by unfold Statement; decide

end Sys2Proof.Laws.RowMatch
end

