-- ==== Sys2Proof/Laws/Run.lean ====
section
/-!
SUPPORT. What one step does to a run (spec/44_host_and_sequencer.md R220).
-/

namespace Sys2Proof.Machine

@[simp] theorem runFrom_zero (started : Bool) (s : State) : runFrom started 0 s = .unfinished := rfl

/-- A step that answers with the REFUSED mark clear. -/
theorem runFrom_succ {started : Bool} {n : Nat} {s t : State} (h : step s = .next t) (hr : t.refused = false) :
    runFrom started (n + 1) s =
      if started then
        match t.phase with
        | .busy => runFrom true n t
        | .done => .ended t
        | .fault => .ended t
        | .idle => .noResult
      else runFrom (acceptsHash s) n t := by
  simp only [runFrom, h, hr]
  rfl

/-- How a run came to its end: the first step answered with the mark clear, and it was the last one, or the rest of the
run ended there. -/
theorem runFrom_ended {started : Bool} {n : Nat} {s u : State} (h : runFrom started n s = .ended u) :
    ∃ m t, n = m + 1 ∧ step s = .next t ∧ t.refused = false ∧
      ((started = true ∧ ((t.phase = .busy ∧ runFrom true m t = .ended u) ∨
          ((t.phase = .done ∨ t.phase = .fault) ∧ u = t))) ∨
        (started = false ∧ runFrom (acceptsHash s) m t = .ended u)) := by
  cases n with
  | zero => cases h
  | succ m =>
    cases hs : step s with
    | fault f => simp [runFrom, hs] at h
    | refused f => simp [runFrom, hs] at h
    | next t =>
      refine ⟨m, t, rfl, rfl, ?_⟩
      cases hr : t.refused with
      | true => simp [runFrom, hs, hr] at h
      | false =>
        rw [runFrom_succ hs hr] at h
        refine ⟨rfl, ?_⟩
        cases started with
        | false => exact .inr ⟨rfl, h⟩
        | true =>
          simp only [if_true] at h
          cases hp : t.phase <;> simp only [hp] at h
          · cases h
          · exact .inl ⟨rfl, .inl ⟨rfl, h⟩⟩
          · cases h; exact .inl ⟨rfl, .inr ⟨.inl rfl, rfl⟩⟩
          · cases h; exact .inl ⟨rfl, .inr ⟨.inr rfl, rfl⟩⟩

/-- A HASH is accepted exactly where the next turn is its word and the phase accepts it (R200). -/
theorem acceptsHash_iff {s : State} : acceptsHash s = true ↔
    (∃ len rest, s.agenda = .host (.command 0x0001 len) :: rest) ∧ (s.phase = .idle ∨ s.phase = .done) := by
  unfold acceptsHash
  cases ha : s.agenda with
  | nil => simp
  | cons x rest =>
    cases x with
    | engine => simp
    | host a =>
      cases a with
      | writeIn k v => simp
      | command w operand =>
        have he : encode (.hash operand) = 0x0001 := rfl
        simp [he]

end Sys2Proof.Machine
end

