-- ==== Sys2Proof/Laws/Step.lean ====
section
/-!
SUPPORT. One step by whose turn it is (spec/44_host_and_sequencer.md R206), and runs of several steps.
-/

namespace Sys2Proof.Machine

theorem step_engine (s : State) (h : engineNext s) : step s = engineTurn (afterTurn s) := by
  rcases h with h | ⟨rest, h⟩
  · obtain ⟨⟩ := s
    simp only at h
    subst h
    rfl
  · obtain ⟨⟩ := s
    simp only at h
    subst h
    rfl

theorem step_host (s : State) (a : HostAction) (rest : List Turn) (h : s.agenda = .host a :: rest) :
    step s = hostTurn a (afterTurn s) := by
  obtain ⟨⟩ := s
  simp only at h
  subst h
  rfl

theorem runsTo_zero (s : State) : runsTo 0 s s := rfl

theorem runsTo_succ (n : Nat) (s t u : State) (h : step s = .next t) (ht : runsTo n t u) : runsTo (n + 1) s u := by
  unfold runsTo at *
  simp only [Host.Core.run]
  rw [show Host.Core.step Sys2Proof.core s = step s from rfl, h]
  exact ht

theorem runsTo_one (s t : State) (h : step s = .next t) : runsTo 1 s t := runsTo_succ 0 s t t h rfl

theorem runsTo_trans (m n : Nat) (s t u : State) (h : runsTo m s t) (h' : runsTo n t u) : runsTo (m + n) s u := by
  induction m generalizing s with
  | zero =>
    have : s = t := Host.Outcome.next.inj h
    subst this
    simpa using h'
  | succ m ih =>
    unfold runsTo at h
    simp only [Host.Core.run] at h
    rw [show Host.Core.step Sys2Proof.core s = step s from rfl] at h
    cases hs : step s with
    | next s1 =>
      rw [hs] at h
      rw [show m + 1 + n = (m + n) + 1 by omega]
      exact runsTo_succ _ _ _ _ hs (ih s1 h)
    | fault r => rw [hs] at h; cases h
    | refused r => rw [hs] at h; cases h

end Sys2Proof.Machine
end

