-- ==== Sys2Proof/Laws/Turns.lean ====
section
/-!
SUPPORT. What a turn can do, once: the engine's (spec/44_host_and_sequencer.md R206), the host's (R200, R250), and
which of the two a step takes.
-/

namespace Sys2Proof.Machine

/-- A step is an engine turn or a host turn. -/
theorem step_cases (s : State) :
    (engineNext s ∧ step s = engineTurn (afterTurn s)) ∨
      ∃ a rest, s.agenda = .host a :: rest ∧ step s = hostTurn a (afterTurn s) := by
  cases h : s.agenda with
  | nil => exact .inl ⟨.inl h, step_engine s (.inl h)⟩
  | cons x rest =>
    cases x with
    | engine => exact .inl ⟨.inr ⟨rest, h⟩, step_engine s (.inr ⟨rest, h⟩)⟩
    | host a => exact .inr ⟨a, rest, rfl, step_host s a rest h⟩

/-- If the engine's turn answers a next state: outside BUSY nothing changed; in BUSY it is a fault entry, or the
micro-operation that MOP holds answered it. -/
theorem engineTurn_next {s t : State} (h : engineTurn s = .next t) :
    (s.phase ≠ .busy ∧ t = s) ∨
      (s.phase = .busy ∧ (faulted s t ∨ ∃ w i, s.mop = some w ∧ decodeMop w = .ok i ∧ exec i s = .next t)) := by
  unfold engineTurn at h
  split at h
  · rename_i hp
    refine .inr ⟨hp, ?_⟩
    rcases withValue_cases h with h | ⟨w, hw, h⟩
    · exact .inl h
    · split at h
      · rename_i i hi
        exact .inr ⟨w, i, hw, hi, h⟩
      · exact .inl (faulted_raise (by decide) h)
  · rename_i hp
    cases h; exact .inl ⟨hp, rfl⟩

/-- If the host's turn answers a next state: it was refused, or the command its word spells answered it, or a byte was
written outside BUSY. -/
theorem hostTurn_next {a : HostAction} {s t : State} (h : hostTurn a s = .next t) :
    (∃ r, t = afterRefusal r s) ∨
      (∃ w operand i, a = .command w operand ∧ decodeHostCommand w operand = .ok i ∧ exec i s = .next t) ∨
      ∃ k v, a = .writeIn k v ∧ s.phase ≠ .busy ∧
        t = { s with input := memWrite s.input k.toNat v, reply := .nothing } := by
  unfold hostTurn at h
  split at h
  · rename_i w operand
    split at h
    · rename_i i hi
      exact .inr (.inl ⟨w, operand, i, rfl, hi, h⟩)
    · cases h; exact .inl ⟨_, rfl⟩
  · rename_i k v
    unfold hostWriteIn at h
    split at h
    · cases h; exact .inl ⟨_, rfl⟩
    · rename_i hp
      cases h; exact .inr (.inr ⟨k, v, rfl, hp, rfl⟩)

end Sys2Proof.Machine
end

