-- ==== Sys2Proof/Tests/Slice0.lean ====
section
/-!
SUPPORT. Small tests of single steps, expected values from spec/95_test_vectors.md and the worked examples of the rules;
and, for every statement with hypotheses, a named witness that meets them together (`witness_…`).
-/

namespace Sys2Proof.Tests

open Sys2Proof Sys2Proof.Machine

/-! Well-formedness and decoding -/

/-- spec/30_encoding.md R83 (c): SCHED 15 has no legal word. -/
theorem test_sched_15_is_ill_formed : (Instr.sched 15).wellFormed = false ∧ (Instr.sched 16).wellFormed = true := by decide

/-- spec/30_encoding.md R82, the bit patterns; spec/95_test_vectors.md section 6. -/
theorem test_padTerm_word : decodeMop 0b0000000000010000 = .ok .padTerm := by decide
theorem test_padAlign_word : decodeMop 0b0000000000010001 = .ok .padAlign := by decide
theorem test_padAlloc_word : decodeMop 0b0000000000010010 = .ok .padAlloc := by decide
theorem test_padPack_word : decodeMop 0b0000000000010011 = .ok .padPack := by decide
theorem test_padLen_word : decodeMop 0b0000000000010100 = .ok .padLen := by decide
theorem test_loadIv_word : decodeMop 0b0000000000100000 = .ok .loadIv := by decide
theorem test_sched_words : decodeMop 0b0001000000110000 = .ok (.sched 16) ∧ decodeMop 0b0011111100110000 = .ok (.sched 63) := by
  decide
theorem test_initWork_word : decodeMop 0b0000000001000000 = .ok .initWork := by decide
theorem test_round_words : decodeMop 0b0000000001000001 = .ok (.round 0) ∧ decodeMop 0b0011111101000001 = .ok (.round 63) := by
  decide
theorem test_addState_word : decodeMop 0b0000000001000010 = .ok .addState := by decide
theorem test_finish_word : decodeMop 0b0000000001010000 = .ok .finish := by decide

/-- spec/30_encoding.md R87, the bit patterns. -/
theorem test_hash_word : decodeHostCommand 0b0000000000000001 3 = .ok (.hash 3) := by decide
theorem test_readStatus_word : decodeHostCommand 0b0000000000000010 0 = .ok .readStatus := by decide
theorem test_readDigest_words :
    decodeHostCommand 0b0000000000000011 0 = .ok (.readDigest 0) ∧
      decodeHostCommand 0b0000011100000011 0 = .ok (.readDigest 7) := by decide
theorem test_reset_word : decodeHostCommand 0b0000000000001111 0 = .ok .reset := by decide

/-- The table's words, HASH's operand in bits 79..16 (log 22). -/
theorem test_table_words :
    decodeTableWord 16 0x1030 = some (.sched 16) ∧ decodeTableWord 16 0x0F30 = none ∧
      decodeTableWord 80 0x30001 = some (.hash 3) ∧ decodeTableWord 16 0x0001 = some (.hash 0) := by decide

/-- The illegal words of spec/95_test_vectors.md section 6, each rejected for its reason. -/
theorem test_illegal_micro_op_words :
    decodeMop 0x0F30 = .error .indexOutOfRange ∧ decodeMop 0x0030 = .error .indexOutOfRange ∧
      decodeMop 0x4041 = .error .reservedBits ∧ decodeMop 0x8050 = .error .reservedBits ∧
      decodeMop 0x0110 = .error .indexOutOfRange ∧ decodeMop 0x0015 = .error .unknownCode ∧
      decodeMop 0x0000 = .error .unknownCode ∧ decodeMop 0xFFFF = .error .reservedBits := by decide

theorem test_illegal_host_words :
    decodeHostCommand 0x0803 0 = .error .indexOutOfRange ∧ decodeHostCommand 0x0004 0 = .error .unknownCode ∧
      decodeHostCommand 0x0101 0 = .error .indexOutOfRange ∧ decodeHostCommand 0x4002 0 = .error .reservedBits := by decide

/-! Datapath: spec/95_test_vectors.md section 2 -/

theorem test_rotate_and_shift :
    rotr 0x12345678 2 = 0x048d159e ∧ rotr 0x12345678 7 = 0xf02468ac ∧ shr 0x12345678 3 = 0x02468acf ∧
      shr 0x80000000 10 = 0x00200000 ∧ add32 0xffffffff 0xffffffff = 0xfffffffe := by decide

theorem test_sigmas :
    bigSigma0 0x12345678 = 0x66146474 ∧ bigSigma1 0x12345678 = 0x3561abda ∧ smallSigma0 0x12345678 = 0xe7fce6ee ∧
      smallSigma1 0x12345678 = 0xa1f78649 ∧ smallSigma0 0x80000000 = 0x11002000 := by decide

theorem test_ch_and_maj :
    ch 0xff00ff00 0x12345678 0x9abcdef0 = 0x12bc56f0 ∧ maj 0xff00ff00 0x0ff00ff0 0x00ffff00 = 0x0ff0ff00 := by decide

/-- spec/43_compression.md R170: the corners of the table and of some rows. -/
theorem test_round_constants :
    romK 0 = 0x428a2f98 ∧ romK 7 = 0xab1c5ed5 ∧ romK 8 = 0xd807aa98 ∧ romK 31 = 0x14292967 ∧ romK 32 = 0x27b70a85 ∧
      romK 39 = 0x92722c85 ∧ romK 63 = 0xc67178f2 := by decide

/-! States for the tests -/

/-- The answer of a step, or a state that no test expects. -/
def after (r : Result) (f : State → Bool) : Bool :=
  match r with
  | .next t => f t
  | .fault _ => false
  | .refused _ => false

/-- MAX_INPUT_BYTES = 100, MAX_BLOCKS = 16. -/
def smallCfg : Config := ⟨100, 16, 1⟩

/-- Right after power-on with these parameters, "abc" in the input space. -/
def idleAbc : State := { State.resetWith smallCfg with input := [(0, 0x61), (1, 0x62), (2, 0x63)] }

/-- HASH L is the host's next turn, and no turn is listed after it. -/
def hashNext (len : U64) : State := { idleAbc with agenda := [.host (.command 0x0001 len)] }

/-- The one block of "abc" after PAD_LEN (spec/95_test_vectors.md section 3). -/
def abcBlock : Block := blockSet (blockSet freshBlock 0 0x61626380) 15 0x18

/-- A block whose words all hold the value w. -/
def fullBlock (w : Word) : Block := Vector.replicate 64 (some w)

/-- An engine in the middle of hash("abc"), the word w in MOP. -/
def busyAbc (w : OpWord) : State :=
  { idleAbc with
    phase := .busy, inlen := some 3, plen := some 4, nblk := some 1, blocks := some [abcBlock]
    h := someWords8 romIV, wv := someWords8 romIV, mop := some w, blk := some 0 }

/-- An engine that finished, its digest all ones. -/
def doneState : State :=
  { idleAbc with phase := .done, inlen := some 3, h := someWords8 ⟨1, 1, 1, 1, 1, 1, 1, 1⟩ }

/-- An engine in FAULT. -/
def faultState : State := { idleAbc with phase := .fault, faultCode := .lengthOverflow, inlen := some 101 }

/-- The next turn of s is the host action a, then the engine's. -/
def hostNext (s : State) (a : HostAction) : State := { s with agenda := [.host a, .engine] }

/-! One step of each instruction -/

/-- spec/41_padder.md R130, R131 examples. -/
theorem test_padTerm : after (exec .padTerm (busyAbc 0x0010)) (fun t => t.plen == some 4 && t.mop == some 0x0011) = true := by
  decide

/-- R241: L = 101 above MAX_INPUT_BYTES = 100 (spec/95_test_vectors.md section 6). -/
theorem test_padTerm_overflow :
    after (exec .padTerm { busyAbc 0x0010 with inlen := some 101 })
      (fun t => statusWord t == 0x00000007 && t.plen == none && t.inlen == some 101) = true := by decide

/-- R131: L = 56 gives 57, then 60; a multiple of 4 stays. -/
theorem test_padAlign :
    after (exec .padAlign { busyAbc 0x0011 with plen := some 57 }) (fun t => t.plen == some 60) = true ∧
      after (exec .padAlign (busyAbc 0x0011)) (fun t => t.plen == some 4) = true := by decide

/-- R134, R140: L = 55 needs one block, L = 56 two; a fresh block has zeros up to word 15 only. -/
theorem test_padAlloc :
    after (exec .padAlloc { busyAbc 0x0012 with inlen := some 55 }) (fun t => t.nblk == some 1) = true ∧
      after (exec .padAlloc { busyAbc 0x0012 with inlen := some 56 })
        (fun t => t.nblk == some 2 && wordAt (t.blocks.getD []) 1 15 == some 0 && wordAt (t.blocks.getD []) 1 16 == none)
        = true := by decide +kernel

/-- R242: MAX_BLOCKS = 1 and L = 100 (spec/95_test_vectors.md section 6). -/
theorem test_padAlloc_exhausted :
    after (exec .padAlloc { busyAbc 0x0012 with inlen := some 100, cfg := ⟨100, 1, 1⟩ })
      (fun t => statusWord t == 0x0000000b && t.blocks == none && t.nblk == none) = true := by decide +kernel

/-- R135: "abc" gives BLOCKS[0][0] = 61626380. -/
theorem test_padPack :
    after (exec .padPack { busyAbc 0x0013 with blocks := some [freshBlock] })
      (fun t => wordAt (t.blocks.getD []) 0 0 == some 0x61626380 && wordAt (t.blocks.getD []) 0 1 == some 0) = true := by
  decide +kernel

/-- R136: "abc" gives word 14 = 00000000, word 15 = 00000018; L = 2^29 gives word 14 = 00000001. -/
theorem test_padLen :
    after (exec .padLen { busyAbc 0x0014 with blocks := some [freshBlock] })
        (fun t => wordAt (t.blocks.getD []) 0 14 == some 0 && wordAt (t.blocks.getD []) 0 15 == some 0x18) = true ∧
      highWord (bitLength 536870912) = 1 ∧ lowWord (bitLength 2305843009213693951) = 0xfffffff8 := by decide +kernel

/-- R172 example. -/
theorem test_loadIv :
    after (exec .loadIv (busyAbc 0x0020))
      (fun t => words8Get t.h 0 == some 0x6a09e667 && words8Get t.h 7 == some 0x5be0cd19 && t.mop == some 0x1030) = true := by
  decide

/-- R160 examples: W[16] = 61626380 and W[17] = 000f0000 for "abc". -/
theorem test_sched :
    after (exec (.sched 16) (busyAbc 0x1030)) (fun t => wordAt (t.blocks.getD []) 0 16 == some 0x61626380) = true ∧
      after (exec (.sched 17) (busyAbc 0x1130)) (fun t => wordAt (t.blocks.getD []) 0 17 == some 0x000f0000) = true := by
  decide +kernel

/-- R160: SCHED 18 reads W[16], which has no value yet. -/
theorem test_sched_unwritten :
    after (exec (.sched 18) (busyAbc 0x1230)) (fun t => statusWord t == 0x0000000f && t.blocks == none) = true := by
  decide +kernel

/-- R173 example. -/
theorem test_initWork :
    after (exec .initWork { busyAbc 0x0040 with wv := noWords8 })
      (fun t => words8Get t.wv 0 == some 0x6a09e667 && words8Get t.wv 4 == some 0x510e527f && t.mop == some 0x0041) = true := by
  decide

/-- R174 example: ROUND 0 of "abc". -/
theorem test_round :
    after (exec (.round 0) (busyAbc 0x0041))
      (fun t => t.wv == someWords8 ⟨0x5d6aebcd, 0x6a09e667, 0xbb67ae85, 0x3c6ef372,
        0xfa2a4622, 0x510e527f, 0x9b05688c, 0x1f83d9ab⟩) = true := by decide +kernel

/-- R175: the table of spec/95_test_vectors.md section 5, its first and last rows; then FINISH. -/
theorem test_addState :
    after (exec .addState { busyAbc 0x0042 with
        wv := someWords8 ⟨0x506e3058, 0xd39a2165, 0x04d24d6c, 0xb85e2ce9, 0x5ef50f24, 0xfb121210, 0x948d25b6, 0x961f4894⟩ })
      (fun t => words8Get t.h 0 == some 0xba7816bf && words8Get t.h 7 == some 0xf20015ad && t.mop == some 0x0050) = true := by
  decide

/-- R207: with a block left, ADD_STATE goes back to SCHED 16 of the next block. -/
theorem test_addState_next_block :
    after (exec .addState { busyAbc 0x0042 with nblk := some 2 }) (fun t => t.blk == some 1 && t.mop == some 0x1030) = true := by
  decide

/-- R210: DONE, H kept, the hidden state released. -/
theorem test_finish :
    after (exec .finish (busyAbc 0x0050))
      (fun t => statusWord t == 0x00000002 && t.h == someWords8 romIV && t.wv == noWords8 && t.mop == none) = true := by decide

/-- R201 example: after HASH 3, BUSY and MOP = 0x0010. -/
theorem test_hash :
    after (exec (.hash 3) doneState)
      (fun t => statusWord t == 0x00000001 && t.mop == some 0x0010 && t.inlen == some 3 && t.h == noWords8) = true := by decide

/-- R200, R250: HASH in FAULT is refused and changes nothing of the engine. -/
theorem test_hash_refused :
    after (exec (.hash 3) faultState)
      (fun t => t.reply == .refused .hashNotAccepted && t.refused && t.inlen == some 101) = true := by decide

/-- R202: the status values of spec/95_test_vectors.md section 6. -/
theorem test_readStatus :
    after (exec .readStatus idleAbc) (fun t => t.reply == .word 0x00000000) = true ∧
      after (exec .readStatus { faultState with faultCode := .illegalMicroOp }) (fun t => t.reply == .word 0x00000013)
        = true := by decide

/-- R203: in DONE the word, in BUSY a refusal even before FINISH. -/
theorem test_readDigest :
    after (exec (.readDigest 7) { doneState with h := someWords8 ⟨0, 1, 2, 3, 4, 5, 6, 0xf20015ad⟩ })
        (fun t => t.reply == .word 0xf20015ad) = true ∧
      after (exec (.readDigest 0) (busyAbc 0x0050)) (fun t => t.reply == .refused .digestNotReady) = true := by decide

/-- R204, R270: RESET in FAULT; IN and the mark stay. -/
theorem test_reset :
    after (exec .reset { faultState with refused := true })
      (fun t => statusWord t == 0x00000000 && t.refused && t.input == idleAbc.input && t.inlen == none) = true := by decide

/-! Whole steps -/

/-- R205: a host write in IDLE lands; in BUSY it is refused. -/
theorem test_host_write :
    after (step (hostNext idleAbc (.writeIn 1 0x7a))) (fun t => memRead t.input 1 == 0x7a && memRead t.input 2 == 0x63) = true ∧
      after (step (hostNext (busyAbc 0x0010) (.writeIn 0 0x00)))
        (fun t => t.reply == .refused .inputWriteWhileBusy && t.input == idleAbc.input) = true := by decide

/-- The canonical form: writing what an unlisted address reads as removes the entry. -/
theorem test_memory_form :
    memWrite [(0, 0x61), (2, 0x63)] 1 0x62 = [(0, 0x61), (1, 0x62), (2, 0x63)] ∧
      memWrite [(0, 0x61), (2, 0x63)] 2 0x00 = [(0, 0x61)] := by decide

/-- R244, R245: an illegal word in MOP; R206: the engine waits in IDLE. -/
theorem test_illegal_word_faults :
    after (step (busyAbc 0x0F30)) (fun t => statusWord t == 0x00000013) = true ∧
      after (step idleAbc) (fun t => t.phase == .idle) = true := by decide

/-- spec/95_test_vectors.md section 6: word 0x0004 is refused. -/
theorem test_illegal_command_refused :
    after (step (hostNext idleAbc (.command 0x0004 0)))
      (fun t => t.reply == .refused .illegalHostCommand && t.refused && t.phase == .idle) = true := by decide

/-- The first instruction after reset, where the host's question places it (log 17). -/
theorem test_first_word_after_reset :
    after (step (State.reset.withFetchWord 16 0x0020)) (fun t => words8Get t.h 0 == some 0x6a09e667) = true ∧
      after (step (State.reset.withFetchWord 16 0x0001)) (fun t => t.mop == some 0x0010) = true := by decide


/-- spec/00_scope.md R13 (d): ADD_STATE past the last block has no successor (log 4). -/
theorem test_stuck : stepKind { busyAbc 0x0042 with blk := some 1 } = .stuck := by decide

/-- spec/44_host_and_sequencer.md R220: FINISH ends a run, a RESET or a refused write leaves it without a result. -/
theorem test_end_of_run :
    (match runFrom true 1 (busyAbc 0x0050) with | .ended t => t.phase == .done | .unfinished => false | .noResult => false)
        = true ∧
      runFrom true 1 (hostNext (busyAbc 0x0010) (.command 0x000F 0)) = .noResult ∧
      runFrom true 1 (hostNext (busyAbc 0x0010) (.writeIn 0 0)) = .noResult ∧
      runFrom true 1 (busyAbc 0x0010) = .unfinished := by decide

/-- spec/00_scope.md R7, R256 of spec/60_exceptions.md: N_ENGINES instances after power-on. -/
theorem test_platform_power_on : (Platform.powerOn ⟨100, 16, 3⟩).engines.length = 3 := by decide

/-! Witnesses: one concrete case for the hypotheses of each statement -/

theorem witness_DecodeOfEncodeIsTheInstruction :
    (Instr.sched 16).wellFormed = true ∧ isMicroOp (.sched 16) = true ∧ (Instr.readDigest 7).wellFormed = true ∧
      isMicroOp (.readDigest 7) = false := by decide

theorem witness_DecodedWordIsEncodedBack :
    decodeMop 0x3F30 = .ok (.sched 63) ∧ decodeHostCommand 0x0001 5 = .ok (.hash 5) := by decide

theorem witness_IllegalMicroOpWordsFault :
    (∃ t, exec .readStatus (busyAbc 0x0F30) = .next t ∧ t.mop = some 0x0F30 ∧ illegalMopWord 0x0F30) ∧
      engineNext (busyAbc 0x0F30) ∧ (busyAbc 0x0F30).phase = .busy ∧ (busyAbc 0x0F30).mop = some 0x0F30 :=
  ⟨⟨_, rfl, rfl, by unfold illegalMopWord; decide⟩, .inl rfl, rfl, rfl⟩

theorem witness_IllegalHostWordsAreRefused :
    (hostNext idleAbc (.command 0x0803 0)).agenda = .host (.command 0x0803 0) :: [.engine] ∧ illegalHostWord 0x0803 :=
  ⟨rfl, by unfold illegalHostWord; decide⟩

theorem witness_StepRunsTheDecodedInstruction :
    (engineNext (busyAbc 0x1030) ∧ (busyAbc 0x1030).phase = .busy ∧ (busyAbc 0x1030).mop = some 0x1030 ∧
        decodeMop 0x1030 = .ok (.sched 16)) ∧
      (hostNext idleAbc (.command 0x0001 3)).agenda = .host (.command 0x0001 3) :: [.engine] ∧
      decodeHostCommand 0x0001 3 = .ok (.hash 3) :=
  ⟨⟨.inl rfl, rfl, rfl, by decide⟩, rfl, by decide⟩

theorem witness_PlacedWordRunsNext :
    decodeMop 0x0010 = .ok .padTerm ∧ decodeTableWord 16 0x3F41 = some (.round 63) ∧
      decodeTableWord 80 0x30001 = some (.hash 3) := by decide

theorem witness_EngineWaitsOutsideBusy :
    (engineNext idleAbc ∧ idleAbc.phase ≠ .busy) ∧ (engineNext doneState ∧ doneState.phase ≠ .busy) ∧
      engineNext faultState ∧ faultState.phase ≠ .busy :=
  ⟨⟨.inl rfl, by decide⟩, ⟨.inl rfl, by decide⟩, .inl rfl, by decide⟩

/-- A micro-operation that completes from a BUSY state, as the statement's clauses assume. -/
def completes (i : Instr) (s : State) : Prop := s.phase = .busy ∧ ∃ t, exec i s = .next t ∧ t.phase ≠ .fault

/-- From an answer's phase to the statement's form. -/
theorem completes_of {i : Instr} {s : State} (hs : s.phase = .busy)
    (h : after (exec i s) (fun t => t.phase != .fault) = true) : completes i s := by
  unfold after at h
  cases hr : exec i s with
  | next t => rw [hr] at h; exact ⟨hs, t, hr, by simpa using h⟩
  | fault f => rw [hr] at h; cases h
  | refused r => rw [hr] at h; cases h

theorem witness_SuccessorTable :
    completes .padTerm (busyAbc 0x0010) ∧ completes .padAlign (busyAbc 0x0011) ∧ completes .padAlloc (busyAbc 0x0012) ∧
      completes .padPack (busyAbc 0x0013) ∧ completes .padLen (busyAbc 0x0014) ∧ completes .loadIv (busyAbc 0x0020) ∧
      (completes (.sched 16) (busyAbc 0x1030) ∧ (16 : BitVec 6).toNat < 63) ∧
      completes (.sched 63) { busyAbc 0x3F30 with blocks := some [fullBlock 0] } ∧ completes .initWork (busyAbc 0x0040) ∧
      (completes (.round 62) { busyAbc 0x3E41 with blocks := some [fullBlock 0] } ∧ (62 : BitVec 6).toNat < 63) ∧
      completes (.round 63) { busyAbc 0x3F41 with blocks := some [fullBlock 0] } ∧
      completes .addState (busyAbc 0x0042) ∧ completes .addState { busyAbc 0x0042 with nblk := some 2 } ∧
      completes .finish (busyAbc 0x0050) := by
  refine ⟨?_, ?_, ?_, ?_, ?_, ?_, ⟨?_, by decide⟩, ?_, ?_, ⟨?_, by decide⟩, ?_, ?_, ?_, ?_⟩ <;>
    exact completes_of rfl (by decide +kernel)

theorem witness_ReadDigestOnlyInDone :
    (doneState.phase = .done ∧ words8Get doneState.h 7 = some 1) ∧ (busyAbc 0x0050).phase ≠ .done := by decide

theorem witness_HashStartsAnInvocation :
    (idleAbc.phase = .idle ∨ idleAbc.phase = .done) ∧ (doneState.phase = .idle ∨ doneState.phase = .done) ∧
      ((busyAbc 0x0010).phase = .busy ∨ (busyAbc 0x0010).phase = .fault) ∧
      (faultState.phase = .busy ∨ faultState.phase = .fault) := by decide

theorem witness_InputWriteRule :
    ((hostNext idleAbc (.writeIn 1 0x7a)).agenda = .host (.writeIn 1 0x7a) :: [.engine] ∧
        memWf (hostNext idleAbc (.writeIn 1 0x7a)).input = true ∧
        (hostNext idleAbc (.writeIn 1 0x7a)).phase ≠ .busy) ∧
      (hostNext (busyAbc 0x0010) (.writeIn 0 0)).agenda = .host (.writeIn 0 0) :: [.engine] ∧
      (hostNext (busyAbc 0x0010) (.writeIn 0 0)).phase = .busy := by decide

theorem witness_AcceptanceByPhase :
    (isMicroOp (.readDigest 0) = false ∧ (doneState.phase = .done → allHold doneState.h) ∧
        acceptedIn (.readDigest 0) doneState.phase) ∧
      (isMicroOp (.hash 3) = false ∧ ((busyAbc 0x0010).phase = .done → allHold (busyAbc 0x0010).h) ∧
        ¬ acceptedIn (.hash 3) (busyAbc 0x0010).phase) ∧ idleAbc.phase ≠ .busy :=
  ⟨⟨rfl, fun _ => rfl, rfl⟩, ⟨rfl, (by intro h; cases h), (by unfold acceptedIn; decide)⟩, by decide⟩

theorem witness_OutsideOfTheEnginePersists :
    (∃ t, step { doneState with refused := true } = .next t ∧ ({ doneState with refused := true } : State).refused = true) ∧
      (∃ t, step (hostNext idleAbc (.writeIn 1 0x7a)) = .next t) ∧ ∃ t, step (busyAbc 0x0010) = .next t :=
  ⟨⟨_, rfl, rfl⟩, ⟨_, rfl⟩, ⟨_, rfl⟩⟩

theorem witness_HostSeesOnlyStatusAndDigest :
    (∃ t, step (hostNext doneState (.command 0x0703 0)) = .next t ∧ t.reply = .word 1) ∧
      (∃ t, step (hostNext idleAbc (.command 0x0002 0)) = .next t ∧ t.reply = .word 0) ∧
      ∃ t, step { busyAbc 0x0010 with reply := .word 1 } = .next t ∧ t.reply = .word 1 :=
  ⟨⟨_, rfl, rfl⟩, ⟨_, rfl, rfl⟩, ⟨_, rfl, rfl⟩⟩

theorem witness_HostCannotDisturbAnInvocation :
    (hostNext (busyAbc 0x0010) (.writeIn 0 0)).phase = .busy ∧
      (hostNext (busyAbc 0x0010) (.writeIn 0 0)).agenda = .host (.writeIn 0 0) :: [.engine] ∧
      ∀ operand, HostAction.writeIn 0 0 ≠ .command 0x000F operand :=
  ⟨rfl, rfl, fun _ h => by cases h⟩

theorem witness_DigestStaysUntilHashOrReset :
    (hostNext doneState (.command 0x0002 0)).phase = .done ∧
      (∃ t, step (hostNext doneState (.command 0x0002 0)) = .next t) ∧
      ∃ t, step (hostNext doneState (.command 0x0001 3)) = .next t :=
  ⟨rfl, ⟨_, rfl⟩, ⟨_, rfl⟩⟩

/-- A BUSY engine at PAD_TERM whose length is above MAX_INPUT_BYTES. -/
def tooLong : State := { busyAbc 0x0010 with inlen := some 101, plen := none, nblk := none, blocks := none, h := noWords8, wv := noWords8 }

/-- A BUSY engine at PAD_ALLOC whose block array would be too large. -/
def tooManyBlocks : State :=
  { busyAbc 0x0012 with
    cfg := ⟨100, 1, 1⟩, inlen := some 100, plen := some 104, nblk := none, blocks := none, h := noWords8, wv := noWords8 }

/-- The fault of an answer, in the statements' form. -/
theorem faults_of {r : Result} {c : FaultCode} (h : after r (fun t => t.phase == .fault && t.faultCode == c) = true) :
    ∃ t, r = .next t ∧ t.phase = .fault ∧ t.faultCode = c := by
  unfold after at h
  cases hr : r with
  | next t => rw [hr] at h; simp at h; exact ⟨t, rfl, h.1, h.2⟩
  | fault f => rw [hr] at h; cases h
  | refused f => rw [hr] at h; cases h

theorem witness_FaultsArePrecise :
    (isMicroOp .padTerm = true ∧ tooLong.phase ≠ .fault ∧ ∃ t, exec .padTerm tooLong = .next t ∧ t.phase = .fault) ∧
      faultState.phase = .fault ∧ engineNext faultState := by
  obtain ⟨t, h, hp, -⟩ := faults_of (r := exec .padTerm tooLong) (c := .lengthOverflow) (by decide)
  exact ⟨⟨rfl, by decide, t, h, hp⟩, rfl, .inl rfl⟩

theorem witness_GuardsOfTheModel :
    idleAbc.inlen = none ∧ idleAbc.plen = none ∧ idleAbc.nblk = none ∧ idleAbc.blk = none ∧
      (16 ≤ (16 : BitVec 6).toNat ∧ (idleAbc.blk = none ∨ idleAbc.blocks = none)) ∧
      (engineNext { idleAbc with phase := .busy } ∧ ({ idleAbc with phase := .busy } : State).phase = .busy ∧
        ({ idleAbc with phase := .busy } : State).mop = none) ∧
      (({ idleAbc with phase := .done } : State).phase = .done ∧
        words8Get ({ idleAbc with phase := .done } : State).h 0 = none) ∧ (15 : BitVec 6).toNat < 16 :=
  ⟨rfl, rfl, rfl, rfl, ⟨by decide, .inl rfl⟩, ⟨.inl rfl, rfl, rfl⟩, ⟨rfl, rfl⟩, by decide⟩

theorem witness_FaultStaysUntilReset :
    faultState.phase = .fault ∧ (∃ t, step faultState = .next t) ∧
      ∃ t, step (hostNext faultState (.command 0x000F 0)) = .next t :=
  ⟨rfl, ⟨_, rfl⟩, ⟨_, rfl⟩⟩

theorem witness_StopsOnlyOutsideTheArray :
    exec .padLen { busyAbc 0x0014 with nblk := some 2 } = .fault .noSuchBlock ∧
      exec .addState { busyAbc 0x0042 with blk := some 1 } = .fault .noSuccessor :=
  ⟨rfl, rfl⟩

theorem witness_RotateShiftAndAdd : (1 ≤ 1 ∧ 1 ≤ 31) ∧ (1 ≤ 31 ∧ 31 ≤ 31) ∧ 31 < 32 := by decide

theorem witness_MixingFunctionBits : 0 < 32 ∧ 31 < 32 := by decide

theorem witness_PadTermRule :
    (busyAbc 0x0010).inlen = some 3 ∧
      ({ busyAbc 0x0010 with inlen := some 100 } : State).inlen = some 100 ∧
      (100 : U64).toNat ≤ (busyAbc 0x0010).cfg.maxInputBytes.toNat ∧
      (busyAbc 0x0010).cfg.maxInputBytes.toNat < (101 : U64).toNat := by decide

theorem witness_PadAlignRule :
    (busyAbc 0x0011).plen = some 4 ∧ (4 : U64).toNat ≤ 2 ^ 64 - 4 ∧ (0xfffffffffffffffc : U64).toNat ≤ 2 ^ 64 - 4 := by decide

theorem witness_PadAllocRule :
    (busyAbc 0x0012).inlen = some 3 ∧ blockCount (3 : U64).toNat ≤ (busyAbc 0x0012).cfg.maxBlocks ∧
      tooManyBlocks.inlen = some 100 ∧ tooManyBlocks.cfg.maxBlocks < blockCount (100 : U64).toNat := by decide

theorem witness_PadPackRule :
    (busyAbc 0x0013).inlen = some 3 ∧ (busyAbc 0x0013).plen = some 4 ∧ (busyAbc 0x0013).blocks = some [abcBlock] ∧
      (4 : U64).toNat / 4 ≤ 16 * [abcBlock].length :=
  ⟨rfl, rfl, rfl, by decide⟩

theorem witness_PadLenRule :
    (busyAbc 0x0014).inlen = some 3 ∧ (3 : U64).toNat < 2 ^ 61 ∧ (busyAbc 0x0014).nblk = some 1 ∧ 1 ≤ 1 ∧
      1 ≤ [abcBlock].length ∧ (busyAbc 0x0014).blocks = some [abcBlock] :=
  ⟨rfl, by decide, rfl, by decide, by decide, rfl⟩

theorem witness_BlockCountLaw :
    (64 * 0 ≤ 0 ∧ 0 ≤ 64 * 0 + 55) ∧ (64 * 0 ≤ 55 ∧ 55 ≤ 64 * 0 + 55) ∧ (64 * 0 + 56 ≤ 56 ∧ 56 ≤ 64 * 0 + 63) ∧
      (64 * 0 + 56 ≤ 63 ∧ 63 ≤ 64 * 0 + 63) ∧ 64 * 1 ≤ 64 ∧ 64 ≤ 64 * 1 + 55 := by decide

theorem witness_StreamEndsBeforeLengthField : (2305843009213693951 : U64).toNat < 2 ^ 61 := by decide

/-- What the statements about an accepted invocation assume. -/
def acceptedAbc : Prop :=
  hashIssued (hashNext 3) 3 ∧ (3 : U64).toNat ≤ (hashNext 3).cfg.maxInputBytes.toNat ∧
    blockCount (3 : U64).toNat ≤ (hashNext 3).cfg.maxBlocks

theorem acceptedAbc_holds : acceptedAbc := ⟨⟨.inl rfl, rfl⟩, by decide, by decide⟩

theorem witness_MessageWordsAfterThePadder : acceptedAbc := acceptedAbc_holds

theorem witness_SchedRule :
    16 ≤ (16 : BitVec 6).toNat ∧ 16 ≤ (63 : BitVec 6).toNat ∧ (busyAbc 0x1030).blk = some 0 ∧
      (busyAbc 0x1030).blocks = some [abcBlock] ∧ [abcBlock][0]? = some abcBlock ∧
      (blockGet abcBlock 14 = some 0 ∧ blockGet abcBlock 9 = some 0 ∧ blockGet abcBlock 1 = some 0 ∧
        blockGet abcBlock 0 = some 0x61626380) ∧ blockGet abcBlock (18 - 2) = none :=
  ⟨by decide, by decide, rfl, rfl, rfl, by decide +kernel, by decide +kernel⟩

theorem witness_ScheduleOfABlock :
    (busyAbc 0x1030).phase = .busy ∧ (busyAbc 0x1030).agenda = [] ∧ (busyAbc 0x1030).mop = some 0x1030 ∧
      (busyAbc 0x1030).blk = some 0 ∧ (busyAbc 0x1030).blocks = some [abcBlock] ∧ [abcBlock][0]? = some abcBlock ∧
      ∀ i, i < 16 → blockGet abcBlock i = some (messageWord idleAbc.input 3 i) :=
  ⟨rfl, rfl, rfl, rfl, rfl, rfl, by decide +kernel⟩

theorem witness_LoadIvRule : (busyAbc 0x0020).blk = some 0 := rfl

theorem witness_InitWorkRule :
    (busyAbc 0x0040).h = someWords8 romIV ∧ words8Get ({ busyAbc 0x0040 with h := noWords8 } : State).h 7 = none :=
  ⟨rfl, rfl⟩

theorem witness_RoundRule :
    (busyAbc 0x0041).blk = some 0 ∧ (busyAbc 0x0041).blocks = some [abcBlock] ∧ [abcBlock][0]? = some abcBlock ∧
      blockGet abcBlock (0 : BitVec 6).toNat = some 0x61626380 ∧ (busyAbc 0x0041).wv = someWords8 romIV ∧
      blockGet abcBlock (16 : BitVec 6).toNat = none :=
  ⟨rfl, rfl, rfl, by decide +kernel, rfl, by decide +kernel⟩

theorem witness_AddStateRule :
    ((busyAbc 0x0042).h = someWords8 romIV ∧ (busyAbc 0x0042).wv = someWords8 romIV ∧ (busyAbc 0x0042).blk = some 0 ∧
        (busyAbc 0x0042).nblk = some 1 ∧ 0 < 1) ∧
      words8Get ({ busyAbc 0x0042 with wv := noWords8 } : State).wv 0 = none :=
  ⟨⟨rfl, rfl, rfl, rfl, by decide⟩, rfl⟩

/-- A block whose schedule is complete. -/
def scheduledAbc : State := { busyAbc 0x0040 with blocks := some [fullBlock 0x5a5a5a5a], wv := noWords8 }

theorem witness_CompressionOfABlock :
    scheduledAbc.phase = .busy ∧ scheduledAbc.agenda = [] ∧ scheduledAbc.mop = some 0x0040 ∧
      scheduledAbc.h = someWords8 romIV ∧ scheduledAbc.blk = some 0 ∧ scheduledAbc.nblk = some 1 ∧ 0 < 1 ∧
      scheduledAbc.blocks = some [fullBlock 0x5a5a5a5a] ∧
      [fullBlock 0x5a5a5a5a][0]? = some (fullBlock 0x5a5a5a5a) ∧
      ∀ i, i < 64 → blockGet (fullBlock 0x5a5a5a5a) i = some 0x5a5a5a5a :=
  ⟨rfl, rfl, rfl, rfl, rfl, rfl, by decide, rfl, rfl, by decide +kernel⟩

theorem witness_MicroOpFrames :
    isMicroOp .padLen = true ∧ completes .padLen (busyAbc 0x0014) ∧ completes .finish (busyAbc 0x0050) :=
  ⟨rfl, completes_of rfl (by decide +kernel), completes_of rfl (by decide +kernel)⟩

theorem witness_HostCommandFrames :
    isMicroOp .readStatus = false ∧ (∃ t, exec .readStatus (busyAbc 0x0010) = .next t) ∧
      ∃ t, exec (.hash 3) (busyAbc 0x0010) = .next t ∧ t.reply = .refused .hashNotAccepted :=
  ⟨rfl, ⟨_, rfl⟩, ⟨_, rfl, rfl⟩⟩

theorem witness_PowerOnMeetsTheInvariant : Config.Ok ⟨0, 1, 1⟩ := by decide

/-- The invariant holds in IDLE, and in the two BUSY states that are about to fault. -/
theorem witness_EveryStepKeepsTheInvariant : idleAbc.Inv ∧ tooLong.Inv ∧ tooManyBlocks.Inv :=
  ⟨⟨by decide, by decide, by unfold codeHolds; decide, ⟨rfl, rfl, rfl, rfl, rfl, rfl, rfl, rfl⟩⟩,
    ⟨by decide, by decide, by unfold codeHolds; decide, ⟨101, .padTerm, rfl, rfl, rfl⟩⟩,
    ⟨by decide, by decide, by unfold codeHolds; decide, ⟨100, .padAlloc, rfl, rfl, ⟨rfl, by decide⟩, rfl⟩⟩⟩

theorem witness_OnlyTwoFaultsAreReached :
    (tooLong.Inv ∧ tooLong.phase = .busy ∧ ∃ t, step tooLong = .next t ∧ t.phase = .fault ∧ t.faultCode = .lengthOverflow) ∧
      tooManyBlocks.Inv ∧ tooManyBlocks.phase = .busy ∧
      ∃ t, step tooManyBlocks = .next t ∧ t.phase = .fault ∧ t.faultCode = .resourceExhausted :=
  ⟨⟨witness_EveryStepKeepsTheInvariant.2.1, rfl, faults_of (by decide)⟩, witness_EveryStepKeepsTheInvariant.2.2, rfl,
    faults_of (by decide +kernel)⟩

theorem witness_InvocationComputesTheDigest : acceptedAbc := acceptedAbc_holds

theorem witness_InvocationIsBusyUntilItsLastStep :
    acceptedAbc ∧ 0 < 6 + 114 * blockCount (3 : U64).toNat + 1 ∧ 120 < 6 + 114 * blockCount (3 : U64).toNat + 1 :=
  ⟨acceptedAbc_holds, by decide, by decide⟩

theorem witness_OversizeInputsFault :
    (hashIssued (hashNext 101) 101 ∧ (hashNext 101).cfg.maxInputBytes.toNat < (101 : U64).toNat) ∧
      hashIssued ({ hashNext 100 with cfg := ⟨100, 1, 1⟩ } : State) 100 ∧
      (100 : U64).toNat ≤ ({ hashNext 100 with cfg := ⟨100, 1, 1⟩ } : State).cfg.maxInputBytes.toNat ∧
      ({ hashNext 100 with cfg := ⟨100, 1, 1⟩ } : State).cfg.maxBlocks < blockCount (100 : U64).toNat :=
  ⟨⟨⟨.inl rfl, rfl⟩, by decide⟩, ⟨.inl rfl, rfl⟩, by decide, by decide⟩

theorem witness_EveryInvocationEnds : hashIssued (hashNext 3) 3 ∧ hashIssued (hashNext 101) 101 :=
  ⟨⟨.inl rfl, rfl⟩, .inl rfl, rfl⟩

/-- Another state with the same three input bytes: in DONE, an old digest in H, a fourth input byte, other parameters. -/
def otherAbc : State :=
  { doneState with
    cfg := ⟨3, 1, 1⟩, input := [(0, 0x61), (1, 0x62), (2, 0x63), (3, 0x64)], agenda := [.host (.command 0x0001 3)] }

theorem witness_DigestDependsOnTheInputAlone :
    acceptedAbc ∧ hashIssued otherAbc 3 ∧ (3 : U64).toNat ≤ otherAbc.cfg.maxInputBytes.toNat ∧
      blockCount (3 : U64).toNat ≤ otherAbc.cfg.maxBlocks ∧
      ∀ k, k < (3 : U64).toNat → memRead (hashNext 3).input k = memRead otherAbc.input k :=
  ⟨acceptedAbc_holds, ⟨.inr rfl, rfl⟩, by decide, by decide, by decide⟩

/-- What the statement assumes of a list of turns, a state that takes them, and one that gives the engine every turn. -/
def sameCourse (a : List Turn) (s t u : State) : Prop :=
  s.agenda = [] ∧ t.agenda = a ∧ sameEngine s t ∧ t.input = s.input ∧ t.cfg = s.cfg ∧
    (∀ operand, Turn.host (.command 0x000F operand) ∉ a) ∧ runsTo (a.count .engine) s u ∧
    (∀ k, k < a.count .engine → ∃ x, runsTo k s x ∧ x.phase = .busy) ∧ (u.phase = .busy ∨ a.getLast? = some .engine)

/-- In the middle of an invocation (PAD_ALIGN), and up to its end (FINISH), with a poll before the engine's turn. -/
theorem witness_HostTurnsDoNotChangeTheInvocation :
    (∃ u, sameCourse [.host (.command 0x0002 0), .engine] (busyAbc 0x0011)
        (hostNext (busyAbc 0x0011) (.command 0x0002 0)) u ∧ u.phase = .busy) ∧
      ∃ u, sameCourse [.host (.command 0x0002 0), .engine] (busyAbc 0x0050)
        (hostNext (busyAbc 0x0050) (.command 0x0002 0)) u ∧ u.phase = .done := by
  refine ⟨⟨_, ⟨rfl, rfl, ⟨rfl, rfl, rfl, rfl, rfl, rfl, rfl, rfl, rfl, rfl⟩, rfl, rfl, ?_, rfl, ?_, .inr rfl⟩, rfl⟩,
    ⟨_, ⟨rfl, rfl, ⟨rfl, rfl, rfl, rfl, rfl, rfl, rfl, rfl, rfl, rfl⟩, rfl, rfl, ?_, rfl, ?_, .inr rfl⟩, rfl⟩⟩
  · intro operand h; simp at h
  · intro k hk
    obtain rfl : k = 0 := by simpa using hk
    exact ⟨_, rfl, rfl⟩
  · intro operand h; simp at h
  · intro k hk
    obtain rfl : k = 0 := by simpa using hk
    exact ⟨_, rfl, rfl⟩

theorem witness_OutcomesOfAStep :
    stepKind (hostNext (busyAbc 0x0010) (.writeIn 0 0)) = .refusal .inputWriteWhileBusy ∧
      stepKind tooLong = .fault .lengthOverflow ∧ stepKind idleAbc = .next ∧
      stepKind { busyAbc 0x0014 with nblk := some 2 } = .stuck ∧ idleAbc.Inv :=
  ⟨by decide, by decide, by decide, rfl, witness_EveryStepKeepsTheInvariant.1⟩

theorem witness_EndOfARun :
    (∃ t, runResult 2 (hashNext 101) = .ended t) ∧ 2 ≤ 3 ∧
      ((hashNext 3).refused = false ∧ acceptsHash (hashNext 3) = true ∧ ∃ t, step (hashNext 3) = .next t) ∧
      (∃ t, step (busyAbc 0x0050) = .next t ∧ t.refused = false ∧ t.phase = .done) ∧
      (∃ t, step tooLong = .next t ∧ t.refused = false ∧ t.phase = .fault) ∧
      (∃ t, step (busyAbc 0x0010) = .next t ∧ t.refused = false ∧ t.phase = .busy) ∧
      ({ hashNext 3 with refused := true } : State).refused = true ∧
      (∃ t, step (hostNext (busyAbc 0x0010) (.writeIn 0 0)) = .next t ∧ t.refused = true) ∧
      (hostNext (busyAbc 0x0010) (.command 0x000F 0)).agenda = .host (.command 0x000F 0) :: [.engine] :=
  ⟨⟨_, rfl⟩, by decide, ⟨rfl, rfl, _, rfl⟩, ⟨_, rfl, rfl, rfl⟩, ⟨_, rfl, rfl, rfl⟩, ⟨_, rfl, rfl, rfl⟩, rfl, ⟨_, rfl, rfl⟩, rfl⟩

/-- A polled run that ends at its third step. -/
theorem witness_ObservationOfARun :
    ((hashNext 101).phase = .idle ∨ (hashNext 101).phase = .done) ∧ (hashNext 101).refused = false ∧
      (∃ t, runResult 3 { hashNext 101 with agenda := .host (.command 0x0001 101) :: [.host (.command 0x0002 0), .engine] }
        = .ended t) ∧
      ∀ x, x ∈ [Turn.host (.command 0x0002 0), Turn.engine] → x = .engine ∨ ∃ operand, x = .host (.command 0x0002 operand) := by
  refine ⟨.inl rfl, rfl, ⟨_, rfl⟩, ?_⟩
  intro x hx
  simp only [List.mem_cons, List.not_mem_nil, or_false] at hx
  rcases hx with rfl | rfl
  · exact .inr ⟨0, rfl⟩
  · exact .inl rfl

/-- Two instances, each with its own state. -/
def pair : Platform := { engines := [{ busyAbc 0x0010 with cfg := ⟨100, 16, 2⟩ }, { busyAbc 0x0020 with cfg := ⟨100, 16, 2⟩ }] }

theorem witness_InstancesDoNotInteract :
    Config.Ok ⟨100, 16, 2⟩ ∧ Platform.Ok ⟨100, 16, 2⟩ pair ∧ (∃ q, platformStep 0 pair = .next q) ∧ (1 : Nat) ≠ 0 ∧
      ∃ r, platformStep 1 pair = .next r := by
  refine ⟨by decide, ⟨by decide, rfl, ?_⟩, ⟨_, rfl⟩, by decide, ⟨_, rfl⟩⟩
  intro s hs
  simp only [pair, List.mem_cons, List.not_mem_nil, or_false] at hs
  rcases hs with rfl | rfl <;> rfl

end Sys2Proof.Tests
end

section
/-!
PROOFS. The decoders answer only what their tables hold (spec/30_encoding.md R82, R85, R87), and a micro-operation's
word decodes to it.
-/

namespace Sys2Proof

/-- A decoder answers only what a row of its table builds. -/
theorem decodeWith_ok {rows : List TableRow} {w : OpWord} {operand : U64} {i : Instr}
    (h : decodeWith rows w operand = .ok i) :
    ∃ r ∈ rows, r.selects w = true ∧ i = r.build (indexField w) operand := by
  unfold decodeWith at h
  split at h
  · cases h
  · split at h
    · rename_i r hr
      cases h
      exact ⟨r, List.mem_of_find?_eq_some hr, List.find?_some (p := (TableRow.selects · w)) hr, rfl⟩
    · split at h <;> cases h

theorem isMicroOp_of_decodeMop {w : OpWord} {i : Instr} (h : decodeMop w = .ok i) : isMicroOp i = true := by
  obtain ⟨r, hr, -, rfl⟩ := decodeWith_ok h
  have rows : ∀ r ∈ mopRows, ∀ idx operand, isMicroOp (r.build idx operand) = true := by simp [mopRows, isMicroOp]
  exact rows r hr _ _

theorem isMicroOp_of_decodeHostCommand {w : OpWord} {operand : U64} {i : Instr}
    (h : decodeHostCommand w operand = .ok i) : isMicroOp i = false := by
  obtain ⟨r, hr, -, rfl⟩ := decodeWith_ok h
  have rows : ∀ r ∈ hostRows, ∀ idx operand, isMicroOp (r.build idx operand) = false := by simp [hostRows, isMicroOp]
  exact rows r hr _ _

/-- The word of a well-formed micro-operation decodes to it, whatever its index. -/
theorem decodeMop_encode {i : Instr} (hm : isMicroOp i = true) (hw : i.wellFormed = true) :
    decodeMop (encode i) = .ok i := by
  cases i with
  | sched n =>
    have words : ∀ n : BitVec 6, (Instr.sched n).wellFormed = true →
        decodeMop (encode (.sched n)) = .ok (.sched n) := by
      decide
    exact words n hw
  | round n =>
    have words : ∀ n : BitVec 6, decodeMop (encode (.round n)) = .ok (.round n) := by decide
    exact words n
  | padTerm | padAlign | padAlloc | padPack | padLen | loadIv | initWork | addState | finish => decide
  | hash | readStatus | readDigest | reset => cases hm

end Sys2Proof
end

section
/-!
PROOFS. What a step that answers can be (spec/00_scope.md R12, R13): each kind of turn with what it keeps of the state
outside the engine.
-/

namespace Sys2Proof.Machine

/-- What a micro-operation that is performed keeps, and the phases it ends in: its own, or DONE (FINISH). -/
structure EngineEffect (s t : State) : Prop where
  cfg : t.cfg = s.cfg
  input : t.input = s.input
  refused : t.refused = s.refused
  agenda : t.agenda = s.agenda
  reply : t.reply = s.reply
  phase : t.phase = s.phase ∨ t.phase = .done

/-- A micro-operation that answers has faulted, or it has kept everything outside the engine. -/
theorem exec_microOp_next {i : Instr} {s t : State} (hi : isMicroOp i = true) (h : exec i s = .next t) :
    faulted s t ∨ EngineEffect s t := by
  cases i with
  | padTerm =>
    exact (execPadTerm_next h).imp_right fun ⟨_, _, _, eq⟩ => eq ▸ ⟨rfl, rfl, rfl, rfl, rfl, .inl rfl⟩
  | padAlign =>
    exact (execPadAlign_next h).imp_right fun ⟨_, _, eq⟩ => eq ▸ ⟨rfl, rfl, rfl, rfl, rfl, .inl rfl⟩
  | padAlloc =>
    exact (execPadAlloc_next h).imp_right fun ⟨_, _, _, eq⟩ => eq ▸ ⟨rfl, rfl, rfl, rfl, rfl, .inl rfl⟩
  | padPack =>
    exact (execPadPack_next h).imp_right fun ⟨_, _, _, _, _, _, _, _, eq⟩ => eq ▸ ⟨rfl, rfl, rfl, rfl, rfl, .inl rfl⟩
  | padLen =>
    exact (execPadLen_next h).imp_right fun ⟨_, _, _, _, _, _, _, _, eq⟩ => eq ▸ ⟨rfl, rfl, rfl, rfl, rfl, .inl rfl⟩
  | loadIv => cases h; exact .inr ⟨rfl, rfl, rfl, rfl, rfl, .inl rfl⟩
  | sched n =>
    rcases execSched_next h with h | ⟨b, bs, cur, x2, x7, x15, x16, -, -, -, -, -, -, -, -, rfl⟩
    · exact .inl h
    · exact .inr ⟨rfl, rfl, rfl, rfl, rfl, .inl rfl⟩
  | initWork =>
    exact (execInitWork_next h).imp_right fun ⟨_, _, eq⟩ => eq ▸ ⟨rfl, rfl, rfl, rfl, rfl, .inl rfl⟩
  | round n =>
    rcases execRound_next h with h | ⟨b, bs, cur, w, v, -, -, -, -, -, rfl⟩
    · exact .inl h
    · exact .inr ⟨rfl, rfl, rfl, rfl, rfl, .inl rfl⟩
  | addState =>
    rcases execAddState_next h with h | ⟨_, _, _, _, -, -, -, -, ⟨-, rfl⟩ | ⟨-, rfl⟩⟩
    · exact .inl h
    · exact .inr ⟨rfl, rfl, rfl, rfl, rfl, .inl rfl⟩
    · exact .inr ⟨rfl, rfl, rfl, rfl, rfl, .inl rfl⟩
  | finish => cases h; exact .inr ⟨rfl, rfl, rfl, rfl, rfl, .inr rfl⟩
  | hash | readStatus | readDigest | reset => cases hi

/-- What an accepted host command keeps: its reply is no refusal, and it does not enter FAULT (R200). -/
structure CommandEffect (s t : State) : Prop where
  cfg : t.cfg = s.cfg
  input : t.input = s.input
  refused : t.refused = s.refused
  agenda : t.agenda = s.agenda
  reply : ∀ r, t.reply ≠ .refused r
  phase : t.phase = .fault → s.phase = .fault

/-- A host command that answers has been refused, or it has been accepted. -/
theorem exec_hostCommand_next {i : Instr} {s t : State} (hi : isMicroOp i = false) (h : exec i s = .next t) :
    (∃ r, t = afterRefusal r s) ∨ CommandEffect s t := by
  cases i with
  | hash len =>
    simp only [exec, execHash] at h
    split at h
    · cases h; exact .inl ⟨_, rfl⟩
    · cases h; exact .inr ⟨rfl, rfl, rfl, rfl, nofun, nofun⟩
  | readStatus => cases h; exact .inr ⟨rfl, rfl, rfl, rfl, nofun, id⟩
  | readDigest j =>
    rcases execReadDigest_next h with rfl | ⟨-, w, -, rfl⟩
    · exact .inl ⟨_, rfl⟩
    · exact .inr ⟨rfl, rfl, rfl, rfl, nofun, id⟩
  | reset => cases h; exact .inr ⟨rfl, rfl, rfl, rfl, nofun, nofun⟩
  | padTerm | padAlign | padAlloc | padPack | padLen | loadIv | sched | initWork | round | addState | finish => cases hi

/-- The ways in which a step leads from s to t, by whose turn it is. -/
inductive StepAnswer (s t : State) : Prop where
  /-- The engine's turn outside BUSY (spec/44_host_and_sequencer.md R206). -/
  | waits (turn : engineNext s) (notBusy : s.phase ≠ .busy) (eq : t = afterTurn s)
  /-- The engine's turn in BUSY raises a fault (spec/60_exceptions.md R240). -/
  | faults (turn : engineNext s) (busy : s.phase = .busy) (c : FaultCode) (code : c ≠ .none)
      (eq : t = faultEntry c (afterTurn s))
  /-- The engine's turn in BUSY performs a micro-operation. -/
  | performs (turn : engineNext s) (busy : s.phase = .busy) (effect : EngineEffect (afterTurn s) t)
  /-- The host's turn is refused (spec/60_exceptions.md R250). -/
  | refuses (a : HostAction) (rest : List Turn) (turn : s.agenda = .host a :: rest) (r : HostRefusal)
      (eq : t = afterRefusal r (afterTurn s))
  /-- The host's turn is a command that is accepted. -/
  | accepts (a : HostAction) (rest : List Turn) (turn : s.agenda = .host a :: rest)
      (effect : CommandEffect (afterTurn s) t)
  /-- The host's turn writes a byte (spec/44_host_and_sequencer.md R205). -/
  | writes (k : U64) (v : Byte) (rest : List Turn) (turn : s.agenda = .host (.writeIn k v) :: rest)
      (notBusy : s.phase ≠ .busy)
      (eq : t = { afterTurn s with input := memWrite s.input k.toNat v, reply := .nothing })

theorem step_next {s t : State} (h : step s = .next t) : StepAnswer s t := by
  rcases step_cases s with ⟨turn, hs⟩ | ⟨a, rest, turn, hs⟩
  · rw [hs] at h
    rcases engineTurn_next h with ⟨notBusy, eq⟩ | ⟨busy, ⟨c, code, eq⟩ | ⟨w, i, -, hd, he⟩⟩
    · exact .waits turn notBusy eq
    · exact .faults turn busy c code eq
    · rcases exec_microOp_next (isMicroOp_of_decodeMop hd) he with ⟨c, code, eq⟩ | effect
      · exact .faults turn busy c code eq
      · exact .performs turn busy effect
  · rw [hs] at h
    rcases hostTurn_next h with ⟨r, eq⟩ | ⟨w, operand, i, -, hd, he⟩ | ⟨k, v, rfl, notBusy, eq⟩
    · exact .refuses a rest turn r eq
    · rcases exec_hostCommand_next (isMicroOp_of_decodeHostCommand hd) he with ⟨r, eq⟩ | effect
      · exact .refuses a rest turn r eq
      · exact .accepts a rest turn effect
    · exact .writes k v rest turn notBusy eq

theorem step_cfg {s t : State} (h : step s = .next t) : t.cfg = s.cfg := by
  cases step_next h with
  | waits _ _ eq | faults _ _ _ _ eq | refuses _ _ _ _ eq | writes _ _ _ _ _ eq => rw [eq]; rfl
  | performs _ _ effect | accepts _ _ _ effect => exact effect.cfg

theorem step_refused {s t : State} (h : step s = .next t) (hr : s.refused = true) : t.refused = true := by
  cases step_next h with
  | waits _ _ eq | faults _ _ _ _ eq | writes _ _ _ _ _ eq => rw [eq]; exact hr
  | refuses _ _ _ _ eq => rw [eq]; rfl
  | performs _ _ effect | accepts _ _ _ effect => exact effect.refused.trans hr

theorem step_input {s t : State} (h : step s = .next t) :
    (∃ k v rest, s.agenda = .host (.writeIn k v) :: rest ∧ s.phase ≠ .busy) ∨ t.input = s.input := by
  cases step_next h with
  | waits _ _ eq | faults _ _ _ _ eq | refuses _ _ _ _ eq => rw [eq]; exact .inr rfl
  | performs _ _ effect | accepts _ _ _ effect => exact .inr effect.input
  | writes k v rest turn notBusy => exact .inl ⟨k, v, rest, turn, notBusy⟩

/-- Settles O17, by the ways in which a step answers. -/
theorem outsideOfTheEnginePersists : Obligations.OutsideOfTheEnginePersists := by
  intro s t h
  exact ⟨step_cfg h, step_refused h, step_input h⟩

end Sys2Proof.Machine
end

section
/-!
PROOFS. Instances of a platform (spec/00_scope.md R7, spec/44_host_and_sequencer.md R214; log 14).
-/

namespace Sys2Proof.Machine

/-- A platform's step puts the stepped engine in its place. Where n names no engine, no place takes t. -/
theorem platformStep_next_iff {n : Nat} {p q : Platform} :
    platformStep n p = .next q ↔
      ∃ t, (∀ s, p.engines[n]? = some s → step s = .next t) ∧ q = { engines := p.engines.set n t } := by
  unfold platformStep
  cases hn : p.engines[n]? with
  | none =>
    have put (t : State) : p.engines.set n t = p.engines := List.set_eq_of_length_le (by simpa using hn)
    constructor
    · intro h
      cases h
      refine ⟨State.reset, ?_, by rw [put]⟩
      intro s hs
      cases hs
    · rintro ⟨t, -, rfl⟩
      rw [put]
  | some s =>
    cases hs : step s <;> simp [hs, eq_comm]

theorem platform_powerOn_ok {cfg : Config} (h : cfg.Ok) : (Platform.powerOn cfg).Ok cfg := by
  refine ⟨h, List.length_replicate, fun s hs => ?_⟩
  rw [List.eq_of_mem_replicate hs, resetWith_cfg]

theorem platformStep_ok {cfg : Config} {p q : Platform} {n : Nat} (hp : p.Ok cfg) (h : platformStep n p = .next q) :
    q.Ok cfg := by
  obtain ⟨hcfg, hlen, hall⟩ := hp
  obtain ⟨t, ht, rfl⟩ := platformStep_next_iff.mp h
  refine ⟨hcfg, by rw [List.length_set, hlen], fun s hs => ?_⟩
  by_cases hn : n < p.engines.length
  · rcases List.mem_or_eq_of_mem_set hs with hs | rfl
    · exact hall s hs
    · rw [step_cfg (ht _ (List.getElem?_eq_getElem hn))]
      exact hall _ (List.getElem_mem hn)
  · rw [List.set_eq_of_length_le (not_lt.mp hn)] at hs
    exact hall s hs

theorem platformStep_other {p q : Platform} {n k : Nat} (h : platformStep n p = .next q) (hk : k ≠ n) :
    q.engines[k]? = p.engines[k]? := by
  obtain ⟨t, -, rfl⟩ := platformStep_next_iff.mp h
  exact List.getElem?_set_ne hk.symm

/-- Both orders put the same two instances in their places. -/
theorem platformStep_comm {p q r : Platform} {n k : Nat} (hne : n ≠ k) (hn : platformStep n p = .next q)
    (hk : platformStep k p = .next r) : ∃ u, platformStep k q = .next u ∧ platformStep n r = .next u := by
  obtain ⟨t, ht, hq⟩ := platformStep_next_iff.mp hn
  obtain ⟨t', ht', hr⟩ := platformStep_next_iff.mp hk
  refine ⟨{ engines := (p.engines.set n t).set k t' },
    platformStep_next_iff.mpr ⟨t', ?_, by rw [hq]⟩, platformStep_next_iff.mpr ⟨t, ?_, ?_⟩⟩
  · rwa [platformStep_other hn hne.symm]
  · rwa [platformStep_other hk hne]
  · rw [hr, List.set_comm _ _ hne]

/-- Settles O60, by what a platform's step puts in which place. -/
theorem instancesDoNotInteract : Obligations.InstancesDoNotInteract := by
  refine ⟨fun cfg h => ⟨platform_powerOn_ok h, State.resetWith cfg, ?_⟩, fun _ _ _ _ => platformStep_ok,
    fun _ _ _ _ => platformStep_other, fun _ _ _ _ _ => platformStep_comm⟩
  exact List.getElem?_replicate_of_lt h.2

end Sys2Proof.Machine
end

section
/-!
PROOFS. No step is a Lean refusal, and a step from a state with the invariant answers: the two stops of the model
(logs 3 and 4) need a block that the array does not have.
-/

namespace Sys2Proof.Machine

theorem withValue_ne_refused {α : Type} {v : Option α} {s : State} {k : α → Result} {r : Refusal}
    (h : ∀ x, k x ≠ .refused r) : withValue v s k ≠ .refused r := by
  cases v with
  | some x => exact h x
  | none => nofun

theorem withCurrentBlock_ne_refused {s : State} {k : Nat → List Block → Block → Result} {r : Refusal}
    (h : ∀ b bs cur, k b bs cur ≠ .refused r) : withCurrentBlock s k ≠ .refused r := by
  refine withValue_ne_refused fun b => withValue_ne_refused fun bs => ?_
  split
  · exact h _ _ _
  · nofun

theorem exec_ne_refused (i : Instr) (s : State) (r : Refusal) : exec i s ≠ .refused r := by
  cases i with
  | padTerm | padAlloc =>
    refine withValue_ne_refused fun len => ?_
    split <;> nofun
  | padAlign | initWork => exact withValue_ne_refused nofun
  | padPack | padLen =>
    refine withValue_ne_refused fun len => withValue_ne_refused fun x => ?_
    split
    · nofun
    · split <;> nofun
  | sched n =>
    simp only [exec, execSched]
    split
    · nofun
    · exact withCurrentBlock_ne_refused fun b bs cur => withValue_ne_refused fun x2 => withValue_ne_refused fun x7 =>
        withValue_ne_refused fun x15 => withValue_ne_refused nofun
  | round n =>
    exact withCurrentBlock_ne_refused fun b bs cur => withValue_ne_refused fun w => withValue_ne_refused nofun
  | addState =>
    refine withValue_ne_refused fun x => withValue_ne_refused fun y => withValue_ne_refused fun b =>
      withValue_ne_refused fun n => ?_
    split
    · nofun
    · split <;> nofun
  | hash len =>
    simp only [exec, execHash]
    split <;> nofun
  | readDigest j =>
    simp only [exec, execReadDigest]
    split
    · nofun
    · split <;> nofun
  | loadIv | finish | readStatus | reset => nofun

theorem engineTurn_ne_refused (s : State) (r : Refusal) : engineTurn s ≠ .refused r := by
  unfold engineTurn
  split
  · refine withValue_ne_refused fun w => ?_
    split
    · exact exec_ne_refused _ _ _
    · nofun
  · nofun

theorem exec_hostCommand_answers {i : Instr} (hi : isMicroOp i = false) (s : State) : ∃ t, exec i s = .next t := by
  cases i with
  | hash len =>
    simp only [exec, execHash]
    split <;> exact ⟨_, rfl⟩
  | readDigest j =>
    simp only [exec, execReadDigest]
    split
    · exact ⟨_, rfl⟩
    · split <;> exact ⟨_, rfl⟩
  | readStatus | reset => exact ⟨_, rfl⟩
  | padTerm | padAlign | padAlloc | padPack | padLen | loadIv | sched | initWork | round | addState | finish => cases hi

/-- The host's turn answers in every state (log 8). -/
theorem hostTurn_answers (a : HostAction) (s : State) : ∃ t, hostTurn a s = .next t := by
  cases a with
  | command w operand =>
    simp only [hostTurn]
    split
    · rename_i i hi
      exact exec_hostCommand_answers (isMicroOp_of_decodeHostCommand hi) s
    · exact ⟨_, rfl⟩
  | writeIn k v =>
    simp only [hostTurn, hostWriteIn]
    split <;> exact ⟨_, rfl⟩

theorem step_ne_refused (s : State) (r : Refusal) : step s ≠ .refused r := by
  rcases step_cases s with ⟨-, hs⟩ | ⟨a, -, -, hs⟩
  · rw [hs]; exact engineTurn_ne_refused _ _
  · obtain ⟨t, ht⟩ := hostTurn_answers a (afterTurn s)
    rw [hs, ht]; nofun

/-- Reading an element answers where the rest answers on its value: without one, the answer is the fault entry. -/
theorem withValue_answers {α : Type} {v : Option α} {s : State} {k : α → Result}
    (h : ∀ x, v = some x → ∃ t, k x = .next t) : ∃ t, withValue v s k = .next t := by
  cases v with
  | some x => exact h x rfl
  | none => exact ⟨_, rfl⟩

theorem withCurrentBlock_answers {s : State} {k : Nat → List Block → Block → Result} {n : Nat}
    (hready : blockReady s n) (h : ∀ b bs cur, ∃ t, k b bs cur = .next t) : ∃ t, withCurrentBlock s k = .next t := by
  obtain ⟨b, bs, cur, hb, hbs, hc, -⟩ := hready
  rw [withCurrentBlock_eq s k b bs cur hb hbs hc]
  exact h b bs cur

theorem execPadPack_answers {s : State} {len : U64} (hlen : lengthAccepted s len)
    (hplen : s.plen = some (alignedLength (len + 1))) (harr : arrayAllocated s len) :
    ∃ t, execPadPack s = .next t := by
  obtain ⟨hinlen, hmax⟩ := hlen
  obtain ⟨-, bs, hbs, hcount, -⟩ := harr
  have hlt : len.toNat < 2 ^ 61 := lt_of_le_of_lt hmax s.cfg.maxInputBytes.isLt
  have hsucc := toNat_succ_of_accepted len hlt
  have hplenNat := toNat_alignedLength (len + 1) (by omega)
  have hfits : 0 + (alignedLength (len + 1)).toNat / 4 ≤ 16 * bs.length := by
    rw [hcount, blockCount_eq]; omega
  obtain ⟨bs', hpack, -⟩ := packWords_spec s.input len.toNat _ 0 bs hfits
  exact ⟨_, by simp only [execPadPack, hinlen, hplen, hbs, withValue_some, hpack]; rfl⟩

theorem execPadLen_answers {s : State} {len : U64} (hinlen : s.inlen = some len) (harr : arrayAllocated s len) :
    ∃ t, execPadLen s = .next t := by
  obtain ⟨hnblk, bs, hbs, hcount, -⟩ := harr
  obtain ⟨bs', hwrite, -⟩ :=
    writeLength_spec (bitLength len) (blockCount len.toNat) bs (one_le_blockCount _) hcount.ge
  exact ⟨_, by simp only [execPadLen, hinlen, hnblk, hbs, withValue_some, hwrite]; rfl⟩

/-- BLK + 1 ≤ NBLK, since block BLK is in the array that PAD_ALLOC made (spec/44_host_and_sequencer.md R207). -/
theorem execAddState_answers {s : State} {len : U64} {m : Nat} (harr : arrayAllocated s len) (hready : blockReady s m) :
    ∃ t, execAddState s = .next t := by
  obtain ⟨hnblk, bs, hbs, hcount, -⟩ := harr
  obtain ⟨b, bs', cur, hblk, hbs', hcur, -⟩ := hready
  obtain rfl : bs = bs' := Option.some.inj (hbs.symm.trans hbs')
  obtain ⟨hin, -⟩ := List.getElem?_eq_some_iff.mp hcur
  refine withValue_answers fun x _ => withValue_answers fun y _ => ?_
  simp only [hblk, hnblk, withValue_some]
  split
  · exact ⟨_, rfl⟩
  · rw [if_pos (by omega)]; exact ⟨_, rfl⟩

/-- A micro-operation answers wherever what it is to start from holds. -/
theorem exec_answers_of_readyFor {s : State} {len : U64} {i : Instr} (h : readyFor s len i) :
    ∃ t, exec i s = .next t := by
  cases i with
  | padTerm | padAlloc =>
    refine withValue_answers fun len _ => ?_
    split <;> exact ⟨_, rfl⟩
  | padAlign | initWork => exact withValue_answers fun x _ => ⟨_, rfl⟩
  | padPack =>
    obtain ⟨hlen, hplen, harr⟩ := h
    exact execPadPack_answers hlen hplen harr
  | padLen =>
    obtain ⟨⟨hinlen, -⟩, harr⟩ := h
    exact execPadLen_answers hinlen harr
  | sched n =>
    obtain ⟨-, -, -, hn, hready⟩ := h
    simp only [exec, execSched, if_neg (not_lt.mpr hn)]
    exact withCurrentBlock_answers hready fun b bs cur => withValue_answers fun x2 _ => withValue_answers fun x7 _ =>
      withValue_answers fun x15 _ => withValue_answers fun x16 _ => ⟨_, rfl⟩
  | round n =>
    obtain ⟨-, -, -, -, hready⟩ := h
    exact withCurrentBlock_answers hready fun b bs cur => withValue_answers fun w _ => withValue_answers fun v _ =>
      ⟨_, rfl⟩
  | addState =>
    obtain ⟨-, harr, -, -, hready⟩ := h
    exact execAddState_answers harr hready
  | loadIv | finish => exact ⟨_, rfl⟩
  | hash | readStatus | readDigest | reset => cases h

/-- Only well-formed micro-operations are ever ready, so MOP's word decodes to the one that is. -/
theorem decodeMop_encode_of_readyFor {s : State} {len : U64} {i : Instr} (h : readyFor s len i) :
    decodeMop (encode i) = .ok i := by
  cases i with
  | sched n =>
    obtain ⟨-, -, -, hn, -⟩ := h
    exact decodeMop_encode rfl (decide_eq_true hn)
  | padTerm | padAlign | padAlloc | padPack | padLen | loadIv | initWork | round | addState | finish =>
    exact decodeMop_encode rfl rfl
  | hash | readStatus | readDigest | reset => cases h

theorem engineTurn_answers {s : State} (h : phaseHolds s) : ∃ t, engineTurn s = .next t := by
  by_cases busy : s.phase = .busy
  · simp only [phaseHolds, busy] at h
    obtain ⟨len, i, hmop, -, hready⟩ := h
    simp only [engineTurn, busy, if_true, hmop, withValue_some, decodeMop_encode_of_readyFor hready]
    exact exec_answers_of_readyFor hready
  · exact ⟨s, if_neg busy⟩

/-- What holds in a phase says nothing about the agenda. -/
theorem phaseHolds_afterTurn {s : State} (h : phaseHolds s) : phaseHolds (afterTurn s) := by
  have ready (len : U64) (i : Instr) : readyFor s len i → readyFor (afterTurn s) len i := by cases i <;> exact id
  unfold phaseHolds at h ⊢
  rw [afterTurn_phase]
  cases hp : s.phase with
  | busy =>
    rw [hp] at h
    obtain ⟨len, i, hmop, hblk, hready⟩ := h
    exact ⟨len, i, hmop, hblk, ready len i hready⟩
  | idle | done | fault => rw [hp] at h; exact h

/-- The machine takes a step from every state that meets the invariant. -/
theorem step_answers_of_inv {s : State} (h : s.Inv) : ∃ t, step s = .next t := by
  rcases step_cases s with ⟨-, hs⟩ | ⟨a, -, -, hs⟩
  · rw [hs]; exact engineTurn_answers (phaseHolds_afterTurn h.phaseOk)
  · rw [hs]; exact hostTurn_answers a _

end Sys2Proof.Machine
end

section
/-!
PROOFS. The four outcomes of a step (spec/00_scope.md R13).
-/

namespace Sys2Proof.Machine

theorem answerKind_eq_refusal {s t : State} {r : HostRefusal} (h : answerKind s t = .refusal r) :
    ¬ engineNext s ∧ t.reply = .refused r := by
  unfold answerKind at h
  split at h
  · rename_i a r' ha hr
    cases h
    refine ⟨?_, hr⟩
    rintro (he | ⟨rest, he⟩) <;> simp [he] at ha
  · split at h <;> cases h

theorem answerKind_eq_fault {s t : State} {c : FaultCode} (h : answerKind s t = .fault c) :
    s.phase ≠ .fault ∧ t.phase = .fault ∧ t.faultCode = c := by
  unfold answerKind at h
  split at h
  · cases h
  · split at h
    · rename_i hp
      cases h
      exact ⟨hp.1, hp.2, rfl⟩
    · cases h

/-- Outcome (a): FAULT was not entered, and a host turn was not refused. -/
theorem answerKind_eq_next {s t : State} (h : answerKind s t = .next) :
    (t.phase = .fault → s.phase = .fault) ∧
      ∀ a rest r, s.agenda = .host a :: rest → t.reply ≠ .refused r := by
  unfold answerKind at h
  split at h
  · cases h
  · rename_i notRefused
    split at h
    · cases h
    · rename_i hp
      refine ⟨by tauto, fun a rest r ha hr => ?_⟩
      exact notRefused a r (by rw [ha]; rfl) hr

theorem answerKind_ne_stuck (s t : State) : answerKind s t ≠ .stuck := by
  unfold answerKind
  split
  · nofun
  · split <;> nofun

theorem stepKind_of_step_next {s t : State} (h : step s = .next t) : stepKind s = answerKind s t := by
  simp only [stepKind, h]

theorem stepKind_eq_stuck_iff {s : State} : stepKind s = .stuck ↔ ∃ f, step s = .fault f := by
  cases hs : step s with
  | next t => simp [stepKind_of_step_next hs, answerKind_ne_stuck]
  | fault f => simp [stepKind, hs]
  | refused r => exact absurd hs (step_ne_refused s r)

/-- Outcomes (a), (b) and (c) are outcomes of a step that answers. -/
theorem step_next_of_stepKind {s : State} {k : StepKind} (h : stepKind s = k) (hk : k ≠ .stuck) :
    ∃ t, step s = .next t ∧ answerKind s t = k := by
  cases hs : step s with
  | next t => exact ⟨t, rfl, (stepKind_of_step_next hs).symm.trans h⟩
  | fault f => exact absurd (h.symm.trans (stepKind_eq_stuck_iff.mpr ⟨f, hs⟩)) hk
  | refused r => exact absurd hs (step_ne_refused s r)

theorem step_of_stepKind_refusal {s : State} {r : HostRefusal} (h : stepKind s = .refusal r) :
    step s = .next (afterRefusal r (afterTurn s)) := by
  obtain ⟨t, hs, hk⟩ := step_next_of_stepKind h nofun
  obtain ⟨hostsTurn, hr⟩ := answerKind_eq_refusal hk
  cases step_next hs with
  | waits turn | faults turn | performs turn => exact absurd turn hostsTurn
  | refuses _ _ _ r' eq =>
    subst eq
    cases hr
    exact hs
  | accepts _ _ _ effect => exact absurd hr (effect.reply r)
  | writes _ _ _ _ _ eq => subst eq; cases hr

theorem step_of_stepKind_fault {s : State} {c : FaultCode} (h : stepKind s = .fault c) :
    s.phase = .busy ∧ c ≠ .none ∧ engineNext s ∧ step s = .next (faultEntry c (afterTurn s)) := by
  obtain ⟨t, hs, hk⟩ := step_next_of_stepKind h nofun
  obtain ⟨hsp, htp, hc⟩ := answerKind_eq_fault hk
  cases step_next hs with
  | faults turn busy c' code eq =>
    subst eq
    obtain rfl : c' = c := hc
    exact ⟨busy, code, turn, hs⟩
  | performs _ busy effect =>
    rcases effect.phase with hp | hp <;> simp [hp, busy] at htp
  | accepts _ _ _ effect => exact absurd (effect.phase htp) hsp
  | waits _ _ eq | refuses _ _ _ _ eq | writes _ _ _ _ _ eq => subst eq; exact absurd htp hsp

theorem step_of_stepKind_next {s : State} (h : stepKind s = .next) :
    ∃ t, step s = .next t ∧ t.refused = s.refused ∧ (t.phase = .fault → s.phase = .fault) := by
  obtain ⟨t, hs, hk⟩ := step_next_of_stepKind h nofun
  obtain ⟨hphase, notRefused⟩ := answerKind_eq_next hk
  refine ⟨t, hs, ?_, hphase⟩
  cases step_next hs with
  | waits _ _ eq | faults _ _ _ _ eq | writes _ _ _ _ _ eq => rw [eq]; rfl
  | performs _ _ effect | accepts _ _ _ effect => exact effect.refused
  | refuses a rest turn r eq => exact absurd (by rw [eq]; rfl) (notRefused a rest r turn)

/-- Settles O57, by the ways in which a step answers and by the step that the invariant gives. -/
theorem outcomesOfAStep : Obligations.OutcomesOfAStep := by
  refine ⟨fun _ _ => step_of_stepKind_refusal, fun _ _ => step_of_stepKind_fault, fun _ => step_of_stepKind_next,
    fun _ => stepKind_eq_stuck_iff, fun s hinv => ?_⟩
  obtain ⟨t, hs⟩ := step_answers_of_inv hinv
  rw [stepKind_of_step_next hs]
  exact answerKind_ne_stuck s t

end Sys2Proof.Machine
end

section
/-!
PROOFS. A host command word is the word of what it decodes to (spec/30_encoding.md R86, R87).
-/

namespace Sys2Proof

/-- A word is put together from its own fields when RSV = 00. -/
theorem wordOf_fields {w : OpWord} (h : reservedField w = 0#2) : wordOf (indexField w) (codeField w) = w := by
  rw [wordOf, ← h, reservedField, indexField, codeField,
    BitVec.extractLsb'_append_extractLsb'_eq_extractLsb' (start₁ := 8) (len₁ := 6) rfl,
    BitVec.extractLsb'_append_extractLsb'_eq_extractLsb' (start₁ := 0) (len₁ := 8) rfl]
  exact BitVec.extractLsb'_eq_self

/-- A row whose mask covers RSV and the code field fixes both fields of the words that select it. -/
theorem TableRow.fields_of_selects {r : TableRow} {w : OpWord} (hcode : codeField r.mask = BitVec.allOnes 8)
    (hrsv : reservedField r.mask = BitVec.allOnes 2) (h : r.selects w = true) :
    codeField w = codeField r.pattern ∧ reservedField w = reservedField r.pattern ∧
      r.indexOk (indexField w) = true := by
  simp only [TableRow.selects, Bool.and_eq_true, beq_iff_eq] at h
  obtain ⟨hmatch, hidx⟩ := h
  simp only [codeField, reservedField] at *
  refine ⟨?_, ?_, hidx⟩
  · rw [← hmatch, BitVec.extractLsb'_and, hcode, BitVec.and_allOnes]
  · rw [← hmatch, BitVec.extractLsb'_and, hrsv, BitVec.and_allOnes]

/-- A word that selects such a row is the row's code under an index field that the row allows. -/
theorem TableRow.word_of_selects {r : TableRow} {w : OpWord} (hcode : codeField r.mask = BitVec.allOnes 8)
    (hrsv : reservedField r.mask = BitVec.allOnes 2) (hpat : reservedField r.pattern = 0#2)
    (h : r.selects w = true) :
    w = wordOf (indexField w) (codeField r.pattern) ∧ r.indexOk (indexField w) = true := by
  obtain ⟨hc, hr, hidx⟩ := r.fields_of_selects hcode hrsv h
  exact ⟨by rw [← hc, wordOf_fields (hr.trans hpat)], hidx⟩

/-- A row of the host command map builds a command whose word has the row's code and the given index field. -/
theorem encode_build_of_mem_hostRows {r : TableRow} (hr : r ∈ hostRows) {idx : BitVec 6} {operand : U64}
    (hidx : r.indexOk idx = true) : encode (r.build idx operand) = wordOf idx (codeField r.pattern) := by
  have digest : ∀ idx : BitVec 6, idx.toNat ≤ 7 → 0#3 ++ idx.extractLsb' 0 3 = idx := by decide
  simp only [hostRows, List.mem_cons, List.not_mem_nil, or_false] at hr
  rcases hr with rfl | rfl | rfl | rfl <;> simp_all [encode, indexIsZero, codeField]

theorem encode_of_decodeHostCommand {w : OpWord} {operand : U64} {i : Instr}
    (h : decodeHostCommand w operand = .ok i) : encode i = w := by
  obtain ⟨r, hr, hsel, rfl⟩ := decodeWith_ok h
  have masks : ∀ r ∈ hostRows, codeField r.mask = BitVec.allOnes 8 ∧ reservedField r.mask = BitVec.allOnes 2 ∧
      reservedField r.pattern = 0#2 := by decide
  obtain ⟨hcode, hrsv, hpat⟩ := masks r hr
  obtain ⟨hw, hidx⟩ := r.word_of_selects hcode hrsv hpat hsel
  exact (encode_build_of_mem_hostRows hr hidx).trans hw.symm

end Sys2Proof
end

section
/-!
PROOFS. The state after power-on, and the STATUS view (spec/10_state.md R22, R37, R38).
-/

namespace Sys2Proof.Machine

@[simp] theorem words8Get_noWords8 (j : BitVec 3) : words8Get noWords8 j = none := by
  unfold words8Get
  split <;> rfl

/-- Settles O10, from the fields of `State.resetWith` and of `Config.chip`. -/
theorem powerOnState : Obligations.PowerOnState := by
  refine ⟨fun cfg => ?_, rfl, Nat.le_add_left 1 _, Nat.le_add_left 1 _⟩
  simp

theorem statusWord_phase (s : State) : (statusWord s).extractLsb' 0 2 = phaseBits s.phase :=
  BitVec.extractLsb'_append_eq_right

theorem statusWord_faultCode (s : State) : (statusWord s).extractLsb' 2 3 = faultCodeBits s.faultCode :=
  (BitVec.extractLsb'_append_eq_of_le le_rfl).trans BitVec.extractLsb'_append_eq_right

theorem statusWord_upper (s : State) : (statusWord s).extractLsb' 5 27 = 0#27 :=
  (BitVec.extractLsb'_append_eq_of_le (by decide)).trans BitVec.extractLsb'_append_eq_left

/-- Settles O12: READ_STATUS answers with the status word, whose fields are the codes of PHASE and FAULT_CODE. -/
theorem readStatusGivesTheStatusView : Obligations.ReadStatusGivesTheStatusView := by
  intro s
  refine ⟨statusWord s, rfl, ?_, ?_, statusWord_upper s⟩
  · rw [statusWord_phase]
    cases s.phase <;> rfl
  · rw [statusWord_faultCode]
    cases s.faultCode <;> rfl

end Sys2Proof.Machine
end

section
/-!
PROOFS. What each agent's turn does to the reply and to the engine's own part of the state
(spec/10_state.md R27, R35; spec/44_host_and_sequencer.md R200 to R203).
-/

namespace Sys2Proof.Machine

theorem engineTurn_reply {s t : State} (h : engineTurn s = .next t) : t.reply = s.reply := by
  rcases engineTurn_next h with ⟨-, rfl⟩ | ⟨-, ⟨c, -, rfl⟩ | ⟨w, i, -, hd, he⟩⟩
  · rfl
  · rfl
  · rcases exec_microOp_next (isMicroOp_of_decodeMop hd) he with ⟨c, -, rfl⟩ | effect
    · rfl
    · exact effect.reply

/-- Only READ_STATUS and READ_DIGEST hand back a word. -/
theorem exec_hostCommand_word {i : Instr} {s t : State} {w : Word} (hi : isMicroOp i = false)
    (h : exec i s = .next t) (hw : t.reply = .word w) :
    (i = .readStatus ∧ w = statusWord s) ∨ ∃ j, i = .readDigest j ∧ s.phase = .done ∧ words8Get s.h j = some w := by
  cases i with
  | readStatus =>
    cases h
    cases hw
    exact .inl ⟨rfl, rfl⟩
  | readDigest j =>
    rcases execReadDigest_next h with rfl | ⟨hp, d, hd, rfl⟩
    · cases hw
    · cases hw
      exact .inr ⟨j, rfl, hp, hd⟩
  | hash len =>
    simp only [exec, execHash] at h
    split at h <;> cases h <;> cases hw
  | reset => cases h; cases hw
  | padTerm | padAlign | padAlloc | padPack | padLen | loadIv | sched | initWork | round | addState | finish => cases hi

/-- A host turn that hands back a word issued a command that hands one back. -/
theorem hostTurn_word {a : HostAction} {s t : State} {w : Word} (h : hostTurn a s = .next t)
    (hw : t.reply = .word w) :
    (∃ operand, a = .command (encode .readStatus) operand ∧ w = statusWord s) ∨
      ∃ j operand, a = .command (encode (.readDigest j)) operand ∧ s.phase = .done ∧ words8Get s.h j = some w := by
  rcases hostTurn_next h with ⟨r, rfl⟩ | ⟨c, operand, i, rfl, hd, he⟩ | ⟨k, v, -, -, rfl⟩
  · cases hw
  · rw [← encode_of_decodeHostCommand hd]
    rcases exec_hostCommand_word (isMicroOp_of_decodeHostCommand hd) he hw with ⟨rfl, eq⟩ | ⟨j, rfl, hp, hj⟩
    · exact .inl ⟨operand, rfl, eq⟩
    · exact .inr ⟨j, operand, rfl, hp, hj⟩
  · cases hw

/-- Settles O18, by whose turn it is and by the commands that hand back a word. -/
theorem hostSeesOnlyStatusAndDigest : Obligations.HostSeesOnlyStatusAndDigest := by
  intro s t w h hw
  rcases step_cases s with ⟨turn, hs⟩ | ⟨a, rest, turn, hs⟩
  · exact .inl ⟨turn, (engineTurn_reply (hs.symm.trans h)).symm.trans hw⟩
  · rcases hostTurn_word (hs.symm.trans h) hw with ⟨operand, rfl, eq⟩ | ⟨j, operand, rfl, hp, hj⟩
    · exact .inr (.inl ⟨operand, rest, turn, eq⟩)
    · exact .inr (.inr ⟨j, operand, rest, turn, hp, hj⟩)

theorem sameEngine_refl (s : State) : sameEngine s s := ⟨rfl, rfl, rfl, rfl, rfl, rfl, rfl, rfl, rfl, rfl⟩

/-- A host command other than HASH and RESET leaves the engine's own part alone (R202, R203). -/
theorem exec_hostCommand_sameEngine {i : Instr} {s t : State} (hi : isMicroOp i = false) (h : exec i s = .next t) :
    sameEngine s t ∨ (∃ len, i = .hash len) ∨ i = .reset := by
  cases i with
  | hash len => exact .inr (.inl ⟨len, rfl⟩)
  | reset => exact .inr (.inr rfl)
  | readStatus => cases h; exact .inl (sameEngine_refl s)
  | readDigest j =>
    rcases execReadDigest_next h with rfl | ⟨-, w, -, rfl⟩ <;> exact .inl (sameEngine_refl s)
  | padTerm | padAlign | padAlloc | padPack | padLen | loadIv | sched | initWork | round | addState | finish => cases hi

/-- A host turn leaves the engine's own part alone, unless it is the word of HASH or RESET. -/
theorem hostTurn_sameEngine {a : HostAction} {s t : State} (h : hostTurn a s = .next t) :
    sameEngine s t ∨ ∃ w operand, a = .command w operand ∧ (w = 0x0001 ∨ w = 0x000F) := by
  rcases hostTurn_next h with ⟨r, rfl⟩ | ⟨w, operand, i, rfl, hd, he⟩ | ⟨k, v, -, -, rfl⟩
  · exact .inl (sameEngine_refl s)
  · rw [← encode_of_decodeHostCommand hd]
    rcases exec_hostCommand_sameEngine (isMicroOp_of_decodeHostCommand hd) he with same | ⟨len, rfl⟩ | rfl
    · exact .inl same
    · exact .inr ⟨_, operand, rfl, .inl rfl⟩
    · exact .inr ⟨_, operand, rfl, .inr rfl⟩
  · exact .inl (sameEngine_refl s)

/-- Settles O20: in DONE the engine waits, and the host's other turns leave the engine's own part alone. -/
theorem digestStaysUntilHashOrReset : Obligations.DigestStaysUntilHashOrReset := by
  intro s t hdone h
  rcases step_cases s with ⟨-, hs⟩ | ⟨a, rest, turn, hs⟩
  · rcases engineTurn_next (hs.symm.trans h) with ⟨-, rfl⟩ | ⟨busy, -⟩
    · exact .inl ⟨hdone, rfl⟩
    · cases hdone.symm.trans busy
  · rcases hostTurn_sameEngine (hs.symm.trans h) with same | ⟨w, operand, rfl, hw⟩
    · obtain ⟨hphase, -, -, -, -, -, hh, -⟩ := same
      exact .inl ⟨hphase.trans hdone, hh⟩
    · exact .inr ⟨w, operand, rest, turn, hw⟩

end Sys2Proof.Machine
end

section
/-!
PROOFS. Where a read meets an element without a value (spec/10_state.md R39; logs 2, 9, 19).
-/

namespace Sys2Proof.Machine

theorem withValue_of_eq_none {α : Type} {v : Option α} {s : State} {k : α → Result} (h : v = none) :
    withValue v s k = raise .unwrittenRead s := by
  rw [h, withValue_none]

/-- Reading an element raises UNWRITTEN_READ where what follows raises it, whether or not the element holds a value. -/
theorem withValue_of_raises {α : Type} {v : Option α} {s : State} {k : α → Result}
    (h : ∀ x, k x = raise .unwrittenRead s) : withValue v s k = raise .unwrittenRead s := by
  cases v with
  | some x => exact h x
  | none => rfl

theorem withCurrentBlock_of_eq_none {s : State} {k : Nat → List Block → Block → Result}
    (h : s.blk = none ∨ s.blocks = none) : withCurrentBlock s k = raise .unwrittenRead s := by
  rcases h with hblk | hblocks
  · exact withValue_of_eq_none hblk
  · exact withValue_of_raises fun _ => withValue_of_eq_none hblocks

theorem exec_raises_of_inlen_eq_none {s : State} (h : s.inlen = none) :
    exec .padTerm s = raise .unwrittenRead s ∧ exec .padAlloc s = raise .unwrittenRead s ∧
      exec .padPack s = raise .unwrittenRead s ∧ exec .padLen s = raise .unwrittenRead s :=
  ⟨withValue_of_eq_none h, withValue_of_eq_none h, withValue_of_eq_none h, withValue_of_eq_none h⟩

theorem exec_raises_of_plen_eq_none {s : State} (h : s.plen = none) :
    exec .padAlign s = raise .unwrittenRead s ∧ exec .padPack s = raise .unwrittenRead s :=
  ⟨withValue_of_eq_none h, withValue_of_raises fun _ => withValue_of_eq_none h⟩

theorem exec_raises_of_nblk_eq_none {s : State} (h : s.nblk = none) :
    exec .padLen s = raise .unwrittenRead s ∧ exec .addState s = raise .unwrittenRead s :=
  ⟨withValue_of_raises fun _ => withValue_of_eq_none h,
    withValue_of_raises fun _ => withValue_of_raises fun _ => withValue_of_raises fun _ => withValue_of_eq_none h⟩

theorem exec_addState_raises_of_blk_eq_none {s : State} (h : s.blk = none) :
    exec .addState s = raise .unwrittenRead s :=
  withValue_of_raises fun _ => withValue_of_raises fun _ => withValue_of_eq_none h

/-- An index below 16 is checked before anything is read (log 19). -/
theorem exec_sched_raises_of_lt {i : BitVec 6} (s : State) (h : i.toNat < 16) :
    exec (.sched i) s = raise .illegalMicroOp s :=
  if_pos h

theorem exec_sched_raises_of_eq_none {i : BitVec 6} {s : State} (hi : 16 ≤ i.toNat)
    (h : s.blk = none ∨ s.blocks = none) : exec (.sched i) s = raise .unwrittenRead s :=
  (if_neg (Nat.not_lt.mpr hi)).trans (withCurrentBlock_of_eq_none h)

theorem exec_round_raises_of_eq_none {s : State} (i : BitVec 6) (h : s.blk = none ∨ s.blocks = none) :
    exec (.round i) s = raise .unwrittenRead s :=
  withCurrentBlock_of_eq_none h

theorem engineTurn_raises_of_mop_eq_none {s : State} (hp : s.phase = .busy) (h : s.mop = none) :
    engineTurn s = raise .unwrittenRead s :=
  (if_pos hp).trans (withValue_of_eq_none h)

theorem exec_readDigest_refuses_of_eq_none {s : State} {j : BitVec 3} (hp : s.phase = .done)
    (h : words8Get s.h j = none) : exec (.readDigest j) s = refuse .digestNotReady s := by
  simp only [exec, execReadDigest, hp, h, ne_eq, not_true_eq_false, if_false]

/-- Settles O22, one guard of the model after another. -/
theorem guardsOfTheModel : Obligations.GuardsOfTheModel :=
  ⟨fun _ => exec_raises_of_inlen_eq_none, fun _ => exec_raises_of_plen_eq_none, fun _ => exec_raises_of_nblk_eq_none,
    fun _ => exec_addState_raises_of_blk_eq_none, fun _ _ => exec_sched_raises_of_eq_none,
    fun _ => exec_round_raises_of_eq_none,
    fun s turn hp h => (step_engine s turn).trans (engineTurn_raises_of_mop_eq_none hp h),
    fun _ _ => exec_readDigest_refuses_of_eq_none, fun s _ => exec_sched_raises_of_lt s⟩

end Sys2Proof.Machine
end

section
/-!
PROOFS. The two stops of the model (spec/20_memory.md R52, spec/44_host_and_sequencer.md R207; logs 3, 4): which
micro-operations reach them, and in which states.
-/

namespace Sys2Proof.Machine

/-- BLOCKS is not allocated, or it has too few blocks for BLK, PLEN or NBLK (spec/20_memory.md R52). -/
def blockMissing (s : State) : Prop :=
  s.blocks = none ∨ ∃ bs, s.blocks = some bs ∧
    ((∃ b, s.blk = some b ∧ bs.length ≤ b) ∨ (∃ p, s.plen = some p ∧ 16 * bs.length < p.toNat / 4) ∨
      ∃ n, s.nblk = some n ∧ (n = 0 ∨ bs.length < n))

/-- Reading an element is no stop: what follows stopped, on the element's value. -/
theorem withValue_fault {α : Type} {v : Option α} {s : State} {k : α → Result} {f : Fault}
    (h : withValue v s k = .fault f) : ∃ x, v = some x ∧ k x = .fault f := by
  cases v with
  | some x => exact ⟨x, rfl, h⟩
  | none => cases h

/-- Reading the current block stops where the array has no block BLK, or what follows stopped. -/
theorem withCurrentBlock_fault {s : State} {k : Nat → List Block → Block → Result} {f : Fault}
    (h : withCurrentBlock s k = .fault f) :
    (f = .noSuchBlock ∧ blockMissing s) ∨ ∃ b bs cur, k b bs cur = .fault f := by
  obtain ⟨b, hb, h⟩ := withValue_fault h
  obtain ⟨bs, hbs, h⟩ := withValue_fault h
  cases hc : bs[b]? with
  | some cur =>
    rw [hc] at h
    exact .inr ⟨b, bs, cur, h⟩
  | none =>
    rw [hc] at h
    cases h
    exact .inl ⟨rfl, .inr ⟨bs, hbs, .inl ⟨b, hb, List.getElem?_eq_none_iff.mp hc⟩⟩⟩

/-- The loop of PAD_PACK misses a block only when it has more words than the array has places for message words. -/
theorem lt_of_packWords_eq_none {input : Memory} {len n j : Nat} {bs : List Block}
    (h : packWords input len n j bs = none) : 16 * bs.length < j + n := by
  by_contra hle
  obtain ⟨bs', hsome, -⟩ := packWords_spec input len n j bs (not_lt.mp hle)
  cases h.symm.trans hsome

/-- PAD_LEN's write misses the final block only when NBLK is 0 or is past the array. -/
theorem of_writeLength_eq_none {lb : U64} {n : Nat} {bs : List Block} (h : writeLength lb n bs = none) :
    n = 0 ∨ bs.length < n := by
  by_contra hin
  obtain ⟨bs', hsome, -⟩ := writeLength_spec lb n bs (by omega) (by omega)
  cases h.symm.trans hsome

theorem execPadPack_fault {s : State} {f : Fault} (h : execPadPack s = .fault f) :
    f = .noSuchBlock ∧ blockMissing s := by
  obtain ⟨len, -, h⟩ := withValue_fault h
  obtain ⟨p, hp, h⟩ := withValue_fault h
  split at h
  · rename_i hbs
    cases h; exact ⟨rfl, .inl hbs⟩
  · rename_i bs hbs
    split at h
    · cases h
    · rename_i hpack
      have hlt := lt_of_packWords_eq_none hpack
      rw [Nat.zero_add] at hlt
      cases h; exact ⟨rfl, .inr ⟨bs, hbs, .inr (.inl ⟨p, hp, hlt⟩)⟩⟩

theorem execPadLen_fault {s : State} {f : Fault} (h : execPadLen s = .fault f) :
    f = .noSuchBlock ∧ blockMissing s := by
  obtain ⟨len, -, h⟩ := withValue_fault h
  obtain ⟨n, hn, h⟩ := withValue_fault h
  split at h
  · rename_i hbs
    cases h; exact ⟨rfl, .inl hbs⟩
  · rename_i bs hbs
    split at h
    · cases h
    · rename_i hwrite
      cases h; exact ⟨rfl, .inr ⟨bs, hbs, .inr (.inr ⟨n, hn, of_writeLength_eq_none hwrite⟩)⟩⟩

theorem execSched_fault {i : BitVec 6} {s : State} {f : Fault} (h : execSched i s = .fault f) :
    f = .noSuchBlock ∧ blockMissing s := by
  unfold execSched at h
  split at h
  · cases h
  · rcases withCurrentBlock_fault h with h | ⟨b, bs, cur, h⟩
    · exact h
    · obtain ⟨x2, -, h⟩ := withValue_fault h
      obtain ⟨x7, -, h⟩ := withValue_fault h
      obtain ⟨x15, -, h⟩ := withValue_fault h
      obtain ⟨x16, -, h⟩ := withValue_fault h
      cases h

theorem execRound_fault {i : BitVec 6} {s : State} {f : Fault} (h : execRound i s = .fault f) :
    f = .noSuchBlock ∧ blockMissing s := by
  rcases withCurrentBlock_fault h with h | ⟨b, bs, cur, h⟩
  · exact h
  · obtain ⟨w, -, h⟩ := withValue_fault h
    obtain ⟨v, -, h⟩ := withValue_fault h
    cases h

theorem execAddState_fault {s : State} {f : Fault} (h : execAddState s = .fault f) :
    f = .noSuccessor ∧ ∃ b n, s.blk = some b ∧ s.nblk = some n ∧ n < b + 1 := by
  obtain ⟨x, -, h⟩ := withValue_fault h
  obtain ⟨y, -, h⟩ := withValue_fault h
  obtain ⟨b, hb, h⟩ := withValue_fault h
  obtain ⟨n, hn, h⟩ := withValue_fault h
  split at h
  · cases h
  · split at h
    · cases h
    · cases h; exact ⟨rfl, b, n, hb, hn, by omega⟩

/-- A host command never stops: it answers in every state. -/
theorem isMicroOp_of_exec_fault {i : Instr} {s : State} {f : Fault} (h : exec i s = .fault f) :
    isMicroOp i = true := by
  by_contra hi
  obtain ⟨t, ht⟩ := exec_hostCommand_answers (Bool.eq_false_of_not_eq_true hi) s
  cases h.symm.trans ht

/-- A meaning that stops is PAD_PACK, PAD_LEN, SCHED or ROUND without its block, or ADD_STATE with BLK past NBLK - 1. -/
theorem exec_fault {i : Instr} {s : State} {f : Fault} (h : exec i s = .fault f) :
    (f = .noSuchBlock ∧ blockMissing s) ∨
      (f = .noSuccessor ∧ i = .addState ∧ ∃ b n, s.blk = some b ∧ s.nblk = some n ∧ n < b + 1) := by
  cases i with
  | padPack => exact .inl (execPadPack_fault h)
  | padLen => exact .inl (execPadLen_fault h)
  | sched n => exact .inl (execSched_fault h)
  | round n => exact .inl (execRound_fault h)
  | addState =>
    obtain ⟨hf, past⟩ := execAddState_fault h
    exact .inr ⟨hf, rfl, past⟩
  | padTerm | padAlloc =>
    obtain ⟨len, -, h⟩ := withValue_fault h
    split at h <;> cases h
  | padAlign | initWork =>
    obtain ⟨x, -, h⟩ := withValue_fault h
    cases h
  | loadIv | finish => cases h
  | hash | readStatus | readDigest | reset => cases isMicroOp_of_exec_fault h

/-- Settles O24: each meaning that stops does so for want of a block or of a successor, and no step is refused. -/
theorem stopsOnlyOutsideTheArray : Obligations.StopsOnlyOutsideTheArray :=
  ⟨fun _ _ _ => exec_fault, step_ne_refused⟩

end Sys2Proof.Machine
end

section
/-!
PROOFS. What each host command leaves unchanged (spec/20_memory.md R61, spec/44_host_and_sequencer.md R200,
spec/60_exceptions.md R250).
-/

namespace Sys2Proof.Machine

/-- Settles O46: a refusal sets the mark and the reply only, an accepted command keeps what is outside the engine. -/
theorem hostCommandFrames : Obligations.HostCommandFrames := by
  intro i s t hi h
  rcases exec_hostCommand_next hi h with ⟨r, rfl⟩ | effect
  · exact ⟨rfl, fun _ => rfl, rfl, fun _ => sameEngine_refl s, fun accepted => absurd rfl (accepted r)⟩
  · refine ⟨effect.cfg, fun k => by rw [effect.input], effect.agenda, ?_, fun _ => effect.refused⟩
    intro quiet
    rcases exec_hostCommand_sameEngine hi h with same | ⟨len, rfl⟩ | rfl
    · exact same
    · simp [effect.reply] at quiet
    · simp [effect.reply] at quiet

end Sys2Proof.Machine
end

section
/-!
PROOFS. Packing four bytes into a word undoes taking the word apart (spec/20_memory.md R55, R58).
-/

namespace Sys2Proof.Machine

theorem bigEndianWord_bytes (w : Word) :
    bigEndianWord (w.extractLsb' 24 8) (w.extractLsb' 16 8) (w.extractLsb' 8 8) (w.extractLsb' 0 8) = w := by
  rw [bigEndianWord, BitVec.extractLsb'_append_extractLsb'_eq_extractLsb' (start₁ := 16) (len₁ := 8) rfl,
    BitVec.extractLsb'_append_extractLsb'_eq_extractLsb' (start₁ := 8) (len₁ := 8) rfl,
    BitVec.extractLsb'_append_extractLsb'_eq_extractLsb' (start₁ := 0) (len₁ := 8) rfl]
  exact BitVec.extractLsb'_eq_self

/-- Settles O55: byte m of a digest word starts at bit 24 - 8 m. -/
theorem digestBytesAreBigEndian : Obligations.DigestBytesAreBigEndian :=
  fun d j => bigEndianWord_bytes (words8Get d j)

end Sys2Proof.Machine
end

section
/-!
PROOFS. The rows of both word tables as conditions on the three fields of a word, and the words that select no row
(spec/30_encoding.md R80, R83, R86, R88).
-/

namespace Sys2Proof

/-- The row asks for RSV = 00, for its code in bits 7:0 and for an index field it allows, and for nothing else. -/
abbrev TableRow.Exact (r : TableRow) : Prop :=
  codeField r.mask = BitVec.allOnes 8 ∧ reservedField r.mask = BitVec.allOnes 2 ∧ reservedField r.pattern = 0#2 ∧
    ∀ idx, r.indexOk idx = true → wordOf idx (codeField r.pattern) &&& r.mask = r.pattern

theorem exact_of_mem_mopRows : ∀ r ∈ mopRows, r.Exact := by decide

theorem exact_of_mem_hostRows : ∀ r ∈ hostRows, r.Exact := by decide

/-- The codes of a table's rows, OPC or CMD (R82, R87). -/
abbrev rowCodes (rows : List TableRow) : List (BitVec 8) := rows.map (codeField ·.pattern)

theorem rowCodes_mopRows :
    rowCodes mopRows = [0x10#8, 0x11#8, 0x12#8, 0x13#8, 0x14#8, 0x20#8, 0x30#8, 0x40#8, 0x41#8, 0x42#8, 0x50#8] := rfl

theorem rowCodes_hostRows : rowCodes hostRows = [0x01#8, 0x02#8, 0x03#8, 0x0F#8] := rfl

@[simp] theorem codeField_wordOf (idx : BitVec 6) (code : BitVec 8) : codeField (wordOf idx code) = code :=
  BitVec.extractLsb'_append_eq_right

theorem TableRow.selects_iff {r : TableRow} (hr : r.Exact) {w : OpWord} (hrsv : reservedField w = 0#2) :
    r.selects w = true ↔ codeField w = codeField r.pattern ∧ r.indexOk (indexField w) = true := by
  obtain ⟨hcode, hmask, -, hmatch⟩ := hr
  constructor
  · intro h
    obtain ⟨hc, -, hidx⟩ := r.fields_of_selects hcode hmask h
    exact ⟨hc, hidx⟩
  · rintro ⟨hc, hidx⟩
    have agrees : w &&& r.mask = r.pattern := by
      rw [← wordOf_fields hrsv, hc]
      exact hmatch _ hidx
    simp [TableRow.selects, agrees, hidx]

section
variable {rows : List TableRow} (hrows : ∀ r ∈ rows, r.Exact) (hcodes : (rowCodes rows).Nodup) (w : OpWord)
include hrows hcodes

/-- No row takes a word with RSV = 00: its code is in no row, or the row with its code does not allow its index field. -/
theorem find_selects_eq_none_iff (hrsv : reservedField w = 0#2) :
    rows.find? (·.selects w) = none ↔ codeField w ∉ rowCodes rows ∨
      ∃ r ∈ rows, codeField w = codeField r.pattern ∧ r.indexOk (indexField w) = false := by
  simp only [List.find?_eq_none]
  constructor
  · intro h
    by_cases known : codeField w ∈ rowCodes rows
    · obtain ⟨r, hr, hc⟩ := List.mem_map.mp known
      have notSelected := h r hr
      rw [r.selects_iff (hrows r hr) hrsv] at notSelected
      exact .inr ⟨r, hr, hc.symm, by simpa [hc] using notSelected⟩
    · exact .inl known
  · intro h r hr selected
    obtain ⟨hc, hidx⟩ := (r.selects_iff (hrows r hr) hrsv).mp selected
    rcases h with unknown | ⟨r', hr', hc', hidx'⟩
    · exact unknown (hc ▸ List.mem_map_of_mem hr)
    · cases List.inj_on_of_nodup_map hcodes hr hr' (hc.symm.trans hc')
      cases hidx.symm.trans hidx'

/-- A decoder rejects a word for its reserved bits, for a code in no row, or for an index field that the row with its
code does not allow. -/
theorem decodeWith_error_iff (operand : U64) :
    (∃ e, decodeWith rows w operand = .error e) ↔ reservedField w ≠ 0#2 ∨ codeField w ∉ rowCodes rows ∨
      ∃ r ∈ rows, codeField w = codeField r.pattern ∧ r.indexOk (indexField w) = false := by
  by_cases hrsv : reservedField w = 0#2
  · rw [← find_selects_eq_none_iff hrows hcodes w hrsv, decodeWith]
    cases rows.find? (·.selects w) with
    | none => by_cases known : rows.any (codeField ·.pattern == codeField w) <;> simp [hrsv, known]
    | some r => simp [hrsv]
  · simp [decodeWith, hrsv]

end

/-- R83's cases are those in which a word takes no row of the micro-operation map. -/
theorem illegalMopWord_iff (w : OpWord) : Machine.illegalMopWord w ↔ ∃ e, decodeMop w = .error e := by
  rw [decodeMop, decodeWith_error_iff exact_of_mem_mopRows (by decide), rowCodes_mopRows]
  refine or_congr Iff.rfl (or_congr Iff.rfl ?_)
  simp only [mopRows, List.mem_cons, List.not_mem_nil, or_false, exists_eq_or_imp, ↓existsAndEq, true_and, false_or,
    codeField, BitVec.reduceExtractLsb', indexIsZero, beq_eq_false_iff_ne, decide_eq_false_iff_not, not_le,
    Bool.true_eq_false, and_false]
  grind

/-- R88's cases are those in which a word takes no row of the host command map. -/
theorem illegalHostWord_iff (w : OpWord) (operand : U64) :
    Machine.illegalHostWord w ↔ ∃ e, decodeHostCommand w operand = .error e := by
  rw [decodeHostCommand, decodeWith_error_iff exact_of_mem_hostRows (by decide), rowCodes_hostRows]
  refine or_congr Iff.rfl (or_congr Iff.rfl ?_)
  simp only [hostRows, List.mem_cons, List.not_mem_nil, or_false, exists_eq_or_imp, ↓existsAndEq, true_and, codeField,
    BitVec.reduceExtractLsb', indexIsZero, beq_eq_false_iff_ne, decide_eq_false_iff_not, not_le]
  grind

end Sys2Proof
end

section
/-!
PROOFS. Decoding and encoding are each other's inverse on both word tables (spec/30_encoding.md R80 to R87).
-/

namespace Sys2Proof

theorem decodeHostCommand_encode {i : Instr} (hi : isMicroOp i = false) :
    decodeHostCommand (encode i) (encodeOperand i) = .ok i := by
  cases i with
  | hash len =>
    simp [decodeHostCommand, decodeWith, hostRows, TableRow.selects, encode, encodeOperand, wordOf, reservedField,
      indexField, indexIsZero]
  | readDigest j =>
    have words : ∀ j : BitVec 3, decodeHostCommand (encode (.readDigest j)) 0 = .ok (.readDigest j) := by decide
    exact words j
  | readStatus | reset => decide
  | padTerm | padAlign | padAlloc | padPack | padLen | loadIv | sched | initWork | round | addState | finish => cases hi

/-- Settles O1, format by format. -/
theorem decodeOfEncodeIsTheInstruction : Obligations.DecodeOfEncodeIsTheInstruction :=
  fun _ hw => ⟨fun hm => decodeMop_encode hm hw, decodeHostCommand_encode⟩

/-- A row of the micro-operation map builds a well-formed operation, whose word has the row's code and the given index
field. -/
theorem build_of_mem_mopRows {r : TableRow} (hr : r ∈ mopRows) {idx : BitVec 6} {operand : U64}
    (hidx : r.indexOk idx = true) :
    (r.build idx operand).wellFormed = true ∧ encode (r.build idx operand) = wordOf idx (codeField r.pattern) := by
  simp only [mopRows, List.mem_cons, List.not_mem_nil, or_false] at hr
  rcases hr with rfl | rfl | rfl | rfl | rfl | rfl | rfl | rfl | rfl | rfl | rfl <;>
    simp_all [encode, Instr.wellFormed, indexIsZero, codeField]

/-- The row that a decoder's answer was built from, and the word's fields in it. -/
theorem decodeWith_ok_fields {rows : List TableRow} (hrows : ∀ r ∈ rows, r.Exact) {w : OpWord} {operand : U64}
    {i : Instr} (h : decodeWith rows w operand = .ok i) :
    ∃ r ∈ rows, i = r.build (indexField w) operand ∧ r.indexOk (indexField w) = true ∧
      w = wordOf (indexField w) (codeField r.pattern) := by
  obtain ⟨r, hr, hsel, hi⟩ := decodeWith_ok h
  obtain ⟨hcode, hmask, hpat, -⟩ := hrows r hr
  obtain ⟨hw, hidx⟩ := r.word_of_selects hcode hmask hpat hsel
  exact ⟨r, hr, hi, hidx, hw⟩

theorem of_decodeMop_ok {w : OpWord} {i : Instr} (h : decodeMop w = .ok i) : i.wellFormed = true ∧ encode i = w := by
  obtain ⟨r, hr, rfl, hidx, hw⟩ := decodeWith_ok_fields exact_of_mem_mopRows h
  obtain ⟨hwf, henc⟩ := build_of_mem_mopRows (operand := 0#64) hr hidx
  exact ⟨hwf, henc.trans hw.symm⟩

theorem wellFormed_of_hostCommand {i : Instr} (hi : isMicroOp i = false) : i.wellFormed = true := by
  cases i with
  | hash | readStatus | readDigest | reset => rfl
  | padTerm | padAlign | padAlloc | padPack | padLen | loadIv | sched | initWork | round | addState | finish => cases hi

theorem decodeHostCommand_hash (operand : U64) : decodeHostCommand 0x0001 operand = .ok (.hash operand) :=
  decodeHostCommand_encode (i := .hash operand) rfl

/-- Settles O2: the row a word selects builds a well-formed operation with that word. -/
theorem decodedWordIsEncodedBack : Obligations.DecodedWordIsEncodedBack := by
  refine ⟨fun w i h => ⟨isMicroOp_of_decodeMop h, of_decodeMop_ok h⟩, fun w operand i h => ?_⟩
  have hi := isMicroOp_of_decodeHostCommand h
  refine ⟨hi, wellFormed_of_hostCommand hi, encode_of_decodeHostCommand h, ?_⟩
  rintro rfl
  exact Except.ok.inj (h.symm.trans (decodeHostCommand_hash operand))

/-- Settles O5: each word is the word of the instruction it stands for. -/
theorem wordsOfTheSpecDecode : Obligations.WordsOfTheSpecDecode :=
  ⟨decodeMop_encode (i := .padTerm) rfl rfl, decodeMop_encode (i := .padLen) rfl rfl,
    decodeMop_encode (i := .loadIv) rfl rfl, decodeMop_encode (i := .sched 16) rfl rfl,
    decodeMop_encode (i := .sched 63) rfl rfl, decodeMop_encode (i := .round 63) rfl rfl,
    decodeMop_encode (i := .finish) rfl rfl, decodeHostCommand_hash 3,
    decodeHostCommand_encode (i := .readDigest 7) rfl, decodeHostCommand_encode (i := .reset) rfl⟩

/-- The formats have no code in common (R82, R87). -/
theorem code_ne_of_mem_rows : ∀ r ∈ mopRows, ∀ r' ∈ hostRows, codeField r.pattern ≠ codeField r'.pattern := by decide

/-- No word is legal in both formats. -/
theorem decodeHostCommand_error_of_decodeMop {w : OpWord} {i : Instr} (h : decodeMop w = .ok i) (operand : U64) :
    ∃ e, decodeHostCommand w operand = .error e := by
  cases hd : decodeHostCommand w operand with
  | error e => exact ⟨e, rfl⟩
  | ok j =>
    obtain ⟨r, hr, -, -, hw⟩ := decodeWith_ok_fields exact_of_mem_mopRows h
    obtain ⟨r', hr', -, -, hw'⟩ := decodeWith_ok_fields exact_of_mem_hostRows hd
    have same : codeField r.pattern = codeField r'.pattern := by
      simpa using congrArg codeField (hw.symm.trans hw')
    exact absurd same (code_ne_of_mem_rows r hr r' hr')

end Sys2Proof
end

section
/-!
PROOFS. What illegal words do, and where the word that `withFetchWord` places runs (spec/30_encoding.md R83, R88;
spec/60_exceptions.md R244, R250; logs 17, 22).
-/

namespace Sys2Proof.Machine

/-- MOP holds no illegal word. -/
def mopLegal (s : State) : Prop := ∀ w, s.mop = some w → ¬ illegalMopWord w

theorem not_illegalMopWord_of_decodeMop {w : OpWord} {i : Instr} (h : decodeMop w = .ok i) : ¬ illegalMopWord w := by
  intro hw
  obtain ⟨e, he⟩ := (illegalMopWord_iff w).mp hw
  cases h.symm.trans he

theorem mopLegal_of_eq_none {s : State} (h : s.mop = none) : mopLegal s := by
  intro w hw
  cases h.symm.trans hw

theorem mopLegal_of_eq_encode {s : State} {i : Instr} (h : s.mop = some (encode i)) (hm : isMicroOp i = true)
    (hw : i.wellFormed = true) : mopLegal s := by
  intro w hs
  cases h.symm.trans hs
  exact not_illegalMopWord_of_decodeMop (decodeMop_encode hm hw)

theorem mopLegal_of_faulted {s t : State} (h : faulted s t) : mopLegal t := by
  obtain ⟨c, -, rfl⟩ := h
  exact mopLegal_of_eq_none rfl

/-- The successor of a well-formed micro-operation is a well-formed micro-operation (R207). -/
theorem nextOp_wellFormed {i j : Instr} (hw : i.wellFormed = true) (h : nextOp i = some j) :
    isMicroOp j = true ∧ j.wellFormed = true := by
  cases i with
  | sched n =>
    have sched : ∀ n : BitVec 6, (Instr.sched n).wellFormed = true → n.toNat < 63 →
        (Instr.sched (n + 1)).wellFormed = true := by decide
    simp only [nextOp] at h
    split at h
    · rename_i hn
      cases h; exact ⟨rfl, sched n hw hn⟩
    · cases h; exact ⟨rfl, rfl⟩
  | round n =>
    simp only [nextOp] at h
    split at h <;> cases h <;> exact ⟨rfl, rfl⟩
  | padTerm | padAlign | padAlloc | padPack | padLen | loadIv | initWork => cases h; exact ⟨rfl, rfl⟩
  | addState | finish | hash | readStatus | readDigest | reset => cases h

theorem mopLegal_advance {i : Instr} (hw : i.wellFormed = true) (s : State) : mopLegal (advance i s) := by
  cases h : nextOp i with
  | none => exact mopLegal_of_eq_none (by simp [h])
  | some j =>
    obtain ⟨hm, hj⟩ := nextOp_wellFormed hw h
    exact mopLegal_of_eq_encode (i := j) (by simp [h]) hm hj

/-- A micro-operation that answers leaves no illegal word in MOP. -/
theorem exec_microOp_mopLegal {i : Instr} {s t : State} (hi : isMicroOp i = true) (h : exec i s = .next t) :
    mopLegal t := by
  cases i with
  | padTerm =>
    exact (execPadTerm_next h).elim mopLegal_of_faulted fun ⟨_, _, _, eq⟩ => eq ▸ mopLegal_advance rfl _
  | padAlign => exact (execPadAlign_next h).elim mopLegal_of_faulted fun ⟨_, _, eq⟩ => eq ▸ mopLegal_advance rfl _
  | padAlloc =>
    exact (execPadAlloc_next h).elim mopLegal_of_faulted fun ⟨_, _, _, eq⟩ => eq ▸ mopLegal_advance rfl _
  | padPack =>
    exact (execPadPack_next h).elim mopLegal_of_faulted fun ⟨_, _, _, _, _, _, _, _, eq⟩ => eq ▸ mopLegal_advance rfl _
  | padLen =>
    exact (execPadLen_next h).elim mopLegal_of_faulted fun ⟨_, _, _, _, _, _, _, _, eq⟩ => eq ▸ mopLegal_advance rfl _
  | loadIv => cases h; exact mopLegal_advance rfl _
  | sched n =>
    rcases execSched_next h with h | ⟨_, _, _, _, _, _, _, hn, -, -, -, -, -, -, -, rfl⟩
    · exact mopLegal_of_faulted h
    · exact mopLegal_advance (i := .sched n) (decide_eq_true hn) _
  | initWork => exact (execInitWork_next h).elim mopLegal_of_faulted fun ⟨_, _, eq⟩ => eq ▸ mopLegal_advance rfl _
  | round n =>
    rcases execRound_next h with h | ⟨_, _, _, _, _, -, -, -, -, -, rfl⟩
    · exact mopLegal_of_faulted h
    · exact mopLegal_advance rfl _
  | addState =>
    rcases execAddState_next h with h | ⟨_, _, _, _, -, -, -, -, ⟨-, rfl⟩ | ⟨-, rfl⟩⟩
    · exact mopLegal_of_faulted h
    · exact mopLegal_of_eq_encode (goTo_mop _ _) rfl rfl
    · exact mopLegal_of_eq_encode (goTo_mop _ _) rfl rfl
  | finish => cases h; exact mopLegal_of_eq_none rfl
  | hash | readStatus | readDigest | reset => cases hi

/-- A host command that answers leaves no illegal word in MOP, or leaves MOP as it was. -/
theorem exec_hostCommand_mopLegal {i : Instr} {s t : State} (hi : isMicroOp i = false) (h : exec i s = .next t) :
    mopLegal t ∨ t.mop = s.mop := by
  rcases exec_hostCommand_sameEngine hi h with same | ⟨len, rfl⟩ | rfl
  · obtain ⟨-, -, -, -, -, -, -, -, hmop, -⟩ := same
    exact .inr hmop
  · simp only [exec, execHash] at h
    split at h
    · cases h; exact .inr rfl
    · cases h; exact .inl (mopLegal_of_eq_encode (i := .padTerm) rfl rfl rfl)
  · cases h; exact .inl (mopLegal_of_eq_none rfl)

theorem engineTurn_of_decodeMop {s : State} {w : OpWord} {i : Instr} (hp : s.phase = .busy) (hm : s.mop = some w)
    (h : decodeMop w = .ok i) : engineTurn s = exec i s := by
  simp [engineTurn, hp, hm, h]

theorem engineTurn_of_illegalMopWord {s : State} {w : OpWord} (hp : s.phase = .busy) (hm : s.mop = some w)
    (h : illegalMopWord w) : engineTurn s = .next (faultEntry .illegalMicroOp s) := by
  obtain ⟨e, he⟩ := (illegalMopWord_iff w).mp h
  simp [engineTurn, hp, hm, he, raise]

/-- Settles O3, by the rows of the micro-operation map and by what each instruction puts into MOP. -/
theorem illegalMicroOpWordsFault : Obligations.IllegalMicroOpWordsFault := by
  refine ⟨illegalMopWord_iff, ?_, ?_⟩
  · intro i s t w h hw illegal
    cases hi : isMicroOp i with
    | true => exact absurd illegal (exec_microOp_mopLegal hi h w hw)
    | false =>
      rcases exec_hostCommand_mopLegal hi h with legal | kept
      · exact absurd illegal (legal w hw)
      · exact ⟨rfl, kept.symm.trans hw⟩
  · intro s w turn busy hm illegal
    rw [step_engine s turn]
    exact engineTurn_of_illegalMopWord busy hm illegal

theorem hostTurn_command_of_ok {s : State} {w : OpWord} {operand : U64} {i : Instr}
    (h : decodeHostCommand w operand = .ok i) : hostTurn (.command w operand) s = exec i s := by
  simp [hostTurn, h]

theorem hostTurn_command_of_error {s : State} {w : OpWord} {operand : U64} {e : DecodeError}
    (h : decodeHostCommand w operand = .error e) :
    hostTurn (.command w operand) s = .next (afterRefusal .illegalHostCommand s) := by
  simp [hostTurn, h, refuse_eq]

/-- Settles O4, by the rows of the host command map. -/
theorem illegalHostWordsAreRefused : Obligations.IllegalHostWordsAreRefused := by
  refine ⟨illegalHostWord_iff, fun s w operand rest turn illegal => ?_⟩
  obtain ⟨e, he⟩ := (illegalHostWord_iff w operand).mp illegal
  rw [step_host s _ rest turn]
  exact hostTurn_command_of_error he

/-- The table's answer comes from one of the two decoders. -/
theorem decodeTableWord_eq_some {nbits w : Nat} {i : Instr} (h : decodeTableWord nbits w = some i) :
    decodeMop (BitVec.ofNat 16 (w % 2 ^ nbits)) = .ok i ∨
      decodeHostCommand (BitVec.ofNat 16 (w % 2 ^ nbits)) (BitVec.ofNat 64 (w % 2 ^ nbits / 2 ^ 16)) = .ok i := by
  simp only [decodeTableWord] at h
  split at h
  · cases h; exact .inl ‹_›
  · split at h
    · cases h; exact .inr ‹_›
    · cases h

theorem step_placeWord_of_decodeMop {s : State} {w : OpWord} {operand : U64} {i : Instr} (h : decodeMop w = .ok i) :
    step (placeWord s w operand) = exec i { s with phase := .busy, mop := some w } := by
  obtain ⟨e, he⟩ := decodeHostCommand_error_of_decodeMop h operand
  simp only [placeWord, he]
  rw [step_engine _ (.inr ⟨s.agenda, rfl⟩)]
  exact engineTurn_of_decodeMop rfl rfl h

theorem step_placeWord_of_decodeHostCommand {s : State} {w : OpWord} {operand : U64} {i : Instr}
    (h : decodeHostCommand w operand = .ok i) : step (placeWord s w operand) = exec i s := by
  simp only [placeWord, h]
  rw [step_host _ _ s.agenda rfl]
  exact hostTurn_command_of_ok h

/-- Settles O7, by the decoder that reads the word. -/
theorem placedWordRunsNext : Obligations.PlacedWordRunsNext := by
  refine ⟨fun w operand i h => decodeHostCommand_error_of_decodeMop h operand, fun s nbits w i h => ?_⟩
  unfold State.withFetchWord
  rcases decodeTableWord_eq_some h with hd | hd
  · obtain ⟨-, hword⟩ := of_decodeMop_ok hd
    rw [step_placeWord_of_decodeMop hd, isMicroOp_of_decodeMop hd, hword]
    rfl
  · rw [step_placeWord_of_decodeHostCommand hd, isMicroOp_of_decodeHostCommand hd]
    rfl

end Sys2Proof.Machine
end

section
/-!
PROOFS. The combinational functions bit by bit: rotation, shift and addition, and the six mixing functions over them
(spec/40_datapath.md R100 to R111).
-/

namespace Sys2Proof.Machine

theorem rotr_eq_rotateRight (x : Word) (n : Nat) (h : 1 ≤ n ∧ n ≤ 31) : rotr x n h = x.rotateRight n :=
  (BitVec.rotateRight_eq_rotateRightAux_of_lt (by omega)).symm

theorem getLsbD_rotr (x : Word) (n : Nat) (h : 1 ≤ n ∧ n ≤ 31) {k : Nat} (hk : k < 32) :
    (rotr x n h).getLsbD k = x.getLsbD ((k + n) % 32) := by
  rw [rotr_eq_rotateRight, BitVec.getLsbD_rotateRight_of_lt (by omega)]
  by_cases inside : k < 32 - n
  · have source : (k + n) % 32 = n + k := by omega
    simp only [inside, source, decide_true, cond_true]
  · -- The bit wraps round from the low end of x.
    have source : (k + n) % 32 = k - (32 - n) := by omega
    simp only [inside, hk, source, decide_true, decide_false, cond_false, Bool.true_and]

theorem toNat_shr (x : Word) (n : Nat) (h : 1 ≤ n ∧ n ≤ 31) : (shr x n h).toNat = x.toNat / 2 ^ n := by
  rw [shr, BitVec.toNat_ushiftRight, Nat.shiftRight_eq_div_pow]

/-- The shift brings zeros in from above (R101). -/
theorem getLsbD_shr (x : Word) (n : Nat) (h : 1 ≤ n ∧ n ≤ 31) (k : Nat) :
    (shr x n h).getLsbD k = (decide (k + n < 32) && x.getLsbD (k + n)) := by
  rw [shr, BitVec.getLsbD_ushiftRight, Nat.add_comm n k]
  by_cases inside : k + n < 32
  · simp [inside]
  · simp [inside, BitVec.getLsbD_of_ge x (k + n) (by omega)]

theorem toNat_add32 (x y : Word) : (add32 x y).toNat = (x.toNat + y.toNat) % 2 ^ 32 :=
  BitVec.toNat_add x y

theorem add32_comm (x y : Word) : add32 x y = add32 y x :=
  BitVec.add_comm x y

theorem add32_assoc (x y z : Word) : add32 (add32 x y) z = add32 x (add32 y z) :=
  BitVec.add_assoc x y z

/-- Settles O25, a rule per operation. -/
theorem rotateShiftAndAdd : Obligations.RotateShiftAndAdd :=
  ⟨fun x n h => ⟨fun _ hk => getLsbD_rotr x n h hk, toNat_shr x n h⟩,
    fun x y z => ⟨toNat_add32 x y, add32_comm x y, add32_assoc x y z⟩⟩

theorem getLsbD_ch (x y z : Word) {k : Nat} (hk : k < 32) :
    (ch x y z).getLsbD k = if x.getLsbD k then y.getLsbD k else z.getLsbD k := by
  simp only [ch, BitVec.getLsbD_xor, BitVec.getLsbD_and, BitVec.getLsbD_not, hk, decide_true, Bool.true_and]
  cases x.getLsbD k <;> simp

theorem getLsbD_maj (x y z : Word) (k : Nat) :
    (maj x y z).getLsbD k = true ↔
      (x.getLsbD k = true ∧ y.getLsbD k = true) ∨ (x.getLsbD k = true ∧ z.getLsbD k = true) ∨
        (y.getLsbD k = true ∧ z.getLsbD k = true) := by
  have twoOfThree : ∀ a b c : Bool,
      (((a && b) ^^ (a && c)) ^^ (b && c)) = true ↔
        (a = true ∧ b = true) ∨ (a = true ∧ c = true) ∨ (b = true ∧ c = true) := by decide
  simpa only [maj, BitVec.getLsbD_xor, BitVec.getLsbD_and] using twoOfThree (x.getLsbD k) (y.getLsbD k) (z.getLsbD k)

theorem getLsbD_bigSigma0 (x : Word) {k : Nat} (hk : k < 32) :
    (bigSigma0 x).getLsbD k =
      ((x.getLsbD ((k + 2) % 32) ^^ x.getLsbD ((k + 13) % 32)) ^^ x.getLsbD ((k + 22) % 32)) := by
  simp only [bigSigma0, BitVec.getLsbD_xor, getLsbD_rotr _ _ _ hk]

theorem getLsbD_bigSigma1 (x : Word) {k : Nat} (hk : k < 32) :
    (bigSigma1 x).getLsbD k =
      ((x.getLsbD ((k + 6) % 32) ^^ x.getLsbD ((k + 11) % 32)) ^^ x.getLsbD ((k + 25) % 32)) := by
  simp only [bigSigma1, BitVec.getLsbD_xor, getLsbD_rotr _ _ _ hk]

theorem getLsbD_smallSigma0 (x : Word) {k : Nat} (hk : k < 32) :
    (smallSigma0 x).getLsbD k =
      ((x.getLsbD ((k + 7) % 32) ^^ x.getLsbD ((k + 18) % 32)) ^^ (decide (k + 3 < 32) && x.getLsbD (k + 3))) := by
  simp only [smallSigma0, BitVec.getLsbD_xor, getLsbD_rotr _ _ _ hk, getLsbD_shr]

theorem getLsbD_smallSigma1 (x : Word) {k : Nat} (hk : k < 32) :
    (smallSigma1 x).getLsbD k =
      ((x.getLsbD ((k + 17) % 32) ^^ x.getLsbD ((k + 19) % 32)) ^^ (decide (k + 10 < 32) && x.getLsbD (k + 10))) := by
  simp only [smallSigma1, BitVec.getLsbD_xor, getLsbD_rotr _ _ _ hk, getLsbD_shr]

/-- Settles O26, function by function. -/
theorem mixingFunctionBits : Obligations.MixingFunctionBits :=
  ⟨fun x y z k hk => ⟨getLsbD_ch x y z hk, getLsbD_maj x y z k⟩,
    fun x _ hk => ⟨getLsbD_bigSigma0 x hk, getLsbD_bigSigma1 x hk, getLsbD_smallSigma0 x hk, getLsbD_smallSigma1 x hk⟩⟩

end Sys2Proof.Machine
end

section
/-!
PROOFS. The arithmetic of the padder: the block count, the length of the padded stream and the bit length
(spec/41_padder.md R131, R132, R136, R138, R139).
-/

namespace Sys2Proof.Machine

/-- Settles O33: the ceilings of the three counts are the closed form. -/
theorem blockCountLaw : Obligations.BlockCountLaw := by
  refine ⟨fun len n => ?_, blockCount_eq, fun len => ?_, fun len q hlo hhi => ?_, fun len q hlo hhi => ?_⟩ <;>
    rw [blockCount_eq] <;> omega

/-- PAD_ALIGN's product wraps for no PLEN whose next multiple of 4 is below 2^64 (spec/41_padder.md R131). -/
theorem toNat_alignedLength_of_le {p : U64} (h : p.toNat ≤ 2 ^ 64 - 4) :
    (alignedLength p).toNat = 4 * ((p.toNat + 3) / 4) := by
  rw [alignedLength, BitVec.toNat_ofNat, Nat.mod_eq_of_lt (by omega)]

/-- PLEN after PAD_TERM and PAD_ALIGN on an accepted length. -/
theorem toNat_alignedLength_succ {len : U64} (h : len.toNat < 2 ^ 61) :
    (alignedLength (len + 1)).toNat = 4 * ((len.toNat + 4) / 4) := by
  have hsucc := toNat_succ_of_accepted len h
  rw [toNat_alignedLength_of_le (by omega), hsucc]

/-- Settles O34: the last block has room for 8 bytes above floor(L / 4) + 1 words of the stream. -/
theorem streamEndsBeforeLengthField : Obligations.StreamEndsBeforeLengthField := by
  intro len h
  rw [toNat_alignedLength_succ h, blockCount_eq]
  omega

theorem toNat_bitLength {len : U64} (h : len.toNat < 2 ^ 61) : (bitLength len).toNat = 8 * len.toNat := by
  have eight : (8 : U64).toNat = 8 := rfl
  rw [bitLength, BitVec.toNat_mul, eight, Nat.mod_eq_of_lt (by omega)]

/-- The two words of the length field are the two halves of the bit length (spec/20_memory.md R56). -/
theorem toNat_highWord_lowWord (lb : U64) : (highWord lb).toNat * 2 ^ 32 + (lowWord lb).toNat = lb.toNat := by
  have bound := lb.isLt
  simp only [highWord, lowWord, BitVec.extractLsb'_toNat, Nat.shiftRight_eq_div_pow]
  omega

end Sys2Proof.Machine
end

section
/-!
PROOFS. The padded stream byte by byte and word by word (spec/20_memory.md R55, spec/41_padder.md R133).
-/

namespace Sys2Proof.Machine

/-- Taking a word apart undoes packing four bytes into it. -/
theorem bytes_bigEndianWord (b0 b1 b2 b3 : Byte) :
    (bigEndianWord b0 b1 b2 b3).extractLsb' 24 8 = b0 ∧ (bigEndianWord b0 b1 b2 b3).extractLsb' 16 8 = b1 ∧
      (bigEndianWord b0 b1 b2 b3).extractLsb' 8 8 = b2 ∧ (bigEndianWord b0 b1 b2 b3).extractLsb' 0 8 = b3 := by
  have above (start : Nat) (h : 8 ≤ start) :
      (bigEndianWord b0 b1 b2 b3).extractLsb' start 8 = (b0 ++ b1 ++ b2).extractLsb' (start - 8) 8 :=
    BitVec.extractLsb'_append_eq_of_le h
  refine ⟨?_, ?_, ?_, BitVec.extractLsb'_append_eq_right⟩
  · rw [above 24 (by decide)]
    exact (BitVec.extractLsb'_append_eq_of_le (xlo := b2) (by decide)).trans BitVec.extractLsb'_append_eq_left
  · rw [above 16 (by decide)]
    exact (BitVec.extractLsb'_append_eq_of_le (xlo := b2) (by decide)).trans BitVec.extractLsb'_append_eq_right
  · rw [above 8 (by decide)]
    exact BitVec.extractLsb'_append_eq_right

/-- Byte m, from the top, of word j is byte 4 j + m of the stream (spec/20_memory.md R55). -/
theorem byte_paddedWord (input : Memory) (len j : Nat) {m : Nat} (hm : m < 4) :
    (paddedWord input len j).extractLsb' (24 - 8 * m) 8 = paddedByte input len (4 * j + m) := by
  obtain ⟨byte0, byte1, byte2, byte3⟩ := bytes_bigEndianWord (paddedByte input len (4 * j))
    (paddedByte input len (4 * j + 1)) (paddedByte input len (4 * j + 2)) (paddedByte input len (4 * j + 3))
  match m, hm with
  | 0, _ => exact byte0
  | 1, _ => exact byte1
  | 2, _ => exact byte2
  | 3, _ => exact byte3

/-- Settles O35: byte k is byte k mod 4 of word k div 4, and the stream's own byte k is as R133 says. -/
theorem paddedStreamKeepsEveryByte : Obligations.PaddedStreamKeepsEveryByte := by
  intro input len k
  rw [byte_paddedWord input len (k / 4) (Nat.mod_lt k (by decide)), Nat.div_add_mod]
  rfl

theorem paddedByte_terminator (input : Memory) (len : Nat) : paddedByte input len len = 0x80 := by
  simp [paddedByte]

theorem paddedByte_of_gt {input : Memory} {len k : Nat} (h : len < k) : paddedByte input len k = 0x00 := by
  rw [paddedByte, if_neg (by omega), if_neg (by omega)]

/-- Above the terminator the stream goes on with zero words. -/
theorem paddedWord_of_gt {input : Memory} {len j : Nat} (h : len < 4 * j) : paddedWord input len j = 0 := by
  rw [paddedWord, paddedByte_of_gt h, paddedByte_of_gt (by omega), paddedByte_of_gt (by omega),
    paddedByte_of_gt (by omega)]
  rfl

end Sys2Proof.Machine
end

section
/-!
PROOFS. What each padder micro-operation does where its operands hold values (spec/41_padder.md R130 to R136).
-/

namespace Sys2Proof.Machine

theorem exec_padTerm_of_overflow {s : State} {len : U64} (hlen : s.inlen = some len)
    (h : s.cfg.maxInputBytes.toNat < len.toNat) : exec .padTerm s = .next (faultEntry .lengthOverflow s) := by
  simp [exec, execPadTerm, hlen, h, raise]

theorem exec_padTerm_of_accepted {s : State} {len : U64} (hlen : s.inlen = some len)
    (h : len.toNat ≤ s.cfg.maxInputBytes.toNat) :
    exec .padTerm s = .next { s with plen := some (len + 1), mop := some (encode .padAlign) } := by
  simp only [exec, execPadTerm, hlen, withValue_some, if_neg (not_lt.mpr h)]
  rfl

theorem exec_padAlign_of_plen {s : State} {p : U64} (hp : s.plen = some p) :
    exec .padAlign s = .next { s with plen := some (alignedLength p), mop := some (encode .padAlloc) } := by
  simp only [exec, execPadAlign, hp, withValue_some]
  rfl

theorem exec_padAlloc_of_exhausted {s : State} {len : U64} (hlen : s.inlen = some len)
    (h : s.cfg.maxBlocks < blockCount len.toNat) : exec .padAlloc s = .next (faultEntry .resourceExhausted s) := by
  simp [exec, execPadAlloc, hlen, h, raise]

theorem exec_padAlloc_of_le {s : State} {len : U64} (hlen : s.inlen = some len)
    (h : blockCount len.toNat ≤ s.cfg.maxBlocks) :
    exec .padAlloc s = .next
      { s with
        nblk := some (blockCount len.toNat)
        blocks := some (List.replicate (blockCount len.toNat) freshBlock)
        mop := some (encode .padPack) } := by
  simp only [exec, execPadAlloc, hlen, withValue_some, if_neg (not_lt.mpr h)]
  rfl

theorem exec_padPack_of_packWords {s : State} {len p : U64} {bs bs' : List Block} (hlen : s.inlen = some len)
    (hp : s.plen = some p) (hbs : s.blocks = some bs)
    (h : packWords s.input len.toNat (p.toNat / 4) 0 bs = some bs') :
    exec .padPack s = .next { s with blocks := some bs', mop := some (encode .padLen) } := by
  simp only [exec, execPadPack, hlen, hp, hbs, withValue_some, h]
  rfl

theorem exec_padLen_of_writeLength {s : State} {len : U64} {n : Nat} {bs bs' : List Block} (hlen : s.inlen = some len)
    (hn : s.nblk = some n) (hbs : s.blocks = some bs) (h : writeLength (bitLength len) n bs = some bs') :
    exec .padLen s = .next { s with blocks := some bs', mop := some (encode .loadIv) } := by
  simp only [exec, execPadLen, hlen, hn, hbs, withValue_some, h]
  rfl

/-- Settles O28: the check of R241 splits the lengths, and MAX_INPUT_BYTES is below 2^61, so the sum does not wrap. -/
theorem padTermRule : Obligations.PadTermRule := by
  intro s len hlen
  refine ⟨rfl, paddedByte_terminator s.input len.toNat, exec_padTerm_of_overflow hlen, fun accepted => ?_⟩
  have bound : len.toNat < 2 ^ 61 := lt_of_le_of_lt accepted s.cfg.maxInputBytes.isLt
  exact ⟨len + 1, toNat_succ_of_accepted len bound, exec_padTerm_of_accepted hlen accepted⟩

/-- Settles O29: PLEN becomes its aligned length, which does not wrap. -/
theorem padAlignRule : Obligations.PadAlignRule := by
  intro s p hp bound
  have aligned := toNat_alignedLength_of_le bound
  exact ⟨rfl, alignedLength p, aligned, by omega, exec_padAlign_of_plen hp⟩

/-- Settles O30: the array is made of fresh blocks, or it would pass MAX_BLOCKS and nothing is made. -/
theorem padAllocRule : Obligations.PadAllocRule := by
  intro s len hlen
  refine ⟨rfl, exec_padAlloc_of_exhausted hlen, fun fits => ?_⟩
  refine ⟨_, exec_padAlloc_of_le hlen fits, List.length_replicate, fun b i hb _ => ?_⟩
  rw [List.length_replicate] at hb
  exact wordAt_replicate_freshBlock _ b i hb

/-- Settles O31: the packing loop, started at word 0. -/
theorem padPackRule : Obligations.PadPackRule := by
  intro s len p bs hlen hp hbs fits
  obtain ⟨bs', hpack, length, words⟩ := packWords_spec s.input len.toNat (p.toNat / 4) 0 bs (by omega)
  refine ⟨rfl, bs', exec_padPack_of_packWords hlen hp hbs hpack, length, fun b i _ hi => ?_⟩
  simpa only [Nat.zero_le, true_and, Nat.zero_add] using words b i hi

/-- Settles O32: the length field is written as the two halves of 8 L, which does not wrap. -/
theorem padLenRule : Obligations.PadLenRule := by
  intro s len n bs hlen bound hn one_le le_length hbs
  obtain ⟨bs', hwrite, length, words⟩ := writeLength_spec (bitLength len) n bs one_le le_length
  have halves : (highWord (bitLength len)).toNat * 2 ^ 32 + (lowWord (bitLength len)).toNat = 8 * len.toNat := by
    rw [toNat_highWord_lowWord, toNat_bitLength bound]
  exact ⟨rfl, bs', _, _, exec_padLen_of_writeLength hlen hn hbs hwrite, length, halves, words⟩

end Sys2Proof.Machine
end

section
/-!
PROOFS. An invocation up to LOAD_IV: the accepted HASH and the five padder steps leave the message words of
spec/41_padder.md R137.
-/

namespace Sys2Proof.Machine

/-- A block array right after PAD_PACK on L bytes of `input`: words of the padded stream up to the end of the last
block (spec/41_padder.md R135). -/
structure HoldsStream (input : Memory) (len : U64) (bs : List Block) : Prop where
  length : bs.length = blockCount len.toNat
  words : ∀ b i, b < bs.length → i < 64 →
    wordAt bs b i = if i < 16 then some (paddedWord input len.toNat (16 * b + i)) else none

/-- A block array right after PAD_LEN on L bytes of `input` (spec/41_padder.md R137). -/
structure HoldsMessage (input : Memory) (len : U64) (bs : List Block) : Prop where
  length : bs.length = blockCount len.toNat
  message : ∀ b i, b < bs.length → i < 16 → wordAt bs b i = some (messageWord input len (16 * b + i))
  expanded : ∀ b i, b < bs.length → 16 ≤ i → i < 64 → wordAt bs b i = none

/-- PAD_PACK on a fresh array leaves the stream's words: the words it does not reach are zero in both. -/
theorem packWords_holdsStream (input : Memory) {len : U64} (h : len.toNat < 2 ^ 61) :
    ∃ bs, packWords input len.toNat ((alignedLength (len + 1)).toNat / 4) 0
        (List.replicate (blockCount len.toNat) freshBlock) = some bs ∧
      HoldsStream input len bs := by
  have aligned := toNat_alignedLength_succ h
  have room := streamEndsBeforeLengthField len h
  obtain ⟨bs, hpack, length, words⟩ := packWords_spec input len.toNat ((alignedLength (len + 1)).toNat / 4) 0
    (List.replicate (blockCount len.toNat) freshBlock) (by rw [List.length_replicate]; omega)
  rw [List.length_replicate] at length
  refine ⟨bs, hpack, length, fun b i hb hi => ?_⟩
  rw [words b i hi, wordAt_replicate_freshBlock _ b i (by omega)]
  by_cases hmsg : i < 16
  · by_cases packed : 16 * b + i < (alignedLength (len + 1)).toNat / 4
    · rw [if_pos (by omega), if_pos hmsg]
    · rw [if_neg (by omega), if_pos hmsg, if_pos hmsg, paddedWord_of_gt (by omega)]
  · rw [if_neg (by omega), if_neg hmsg, if_neg hmsg]

/-- PAD_LEN on the packed stream leaves the message words of R137. -/
theorem writeLength_holdsMessage {input : Memory} {len : U64} {bs : List Block} (h : HoldsStream input len bs) :
    ∃ bs', writeLength (bitLength len) (blockCount len.toNat) bs = some bs' ∧ HoldsMessage input len bs' := by
  obtain ⟨length, words⟩ := h
  obtain ⟨bs', hwrite, length', words'⟩ :=
    writeLength_spec (bitLength len) (blockCount len.toNat) bs (one_le_blockCount _) length.ge
  refine ⟨bs', hwrite, length'.trans length, fun b i hb hi => ?_, fun b i hb hlo hhi => ?_⟩
  · rw [words' b i, words b i (by omega) (by omega), if_pos hi, messageWord]
    by_cases high : b + 1 = blockCount len.toNat ∧ i = 14
    · rw [if_pos high, if_pos (by omega)]
    · by_cases low : b + 1 = blockCount len.toNat ∧ i = 15
      · rw [if_neg high, if_pos low, if_neg (by omega), if_pos (by omega)]
      · rw [if_neg high, if_neg low, if_neg (by omega), if_neg (by omega)]
  · rw [words' b i, if_neg (by omega), if_neg (by omega), words b i (by omega) hhi, if_neg (by omega)]

theorem afterTurn_of_agenda_eq_nil {s : State} (turns : s.agenda = []) : afterTurn s = s := by
  obtain ⟨⟩ := s
  cases turns
  rfl

/-- With no turn on the agenda, a BUSY engine performs the micro-operation that MOP holds. -/
theorem step_of_mop_eq_encode {s : State} {i : Instr} (turns : s.agenda = []) (busy : s.phase = .busy)
    (hmop : s.mop = some (encode i)) (hm : isMicroOp i = true) (hw : i.wellFormed = true) : step s = exec i s := by
  rw [step_engine s (.inl turns), afterTurn_of_agenda_eq_nil turns]
  exact engineTurn_of_decodeMop busy hmop (decodeMop_encode hm hw)

/-- A run whose first step performs the micro-operation that MOP holds. -/
theorem runsTo_succ_of_mop {s t u : State} {n : Nat} (i : Instr) (turns : s.agenda = []) (busy : s.phase = .busy)
    (hmop : s.mop = some (encode i)) (hm : isMicroOp i = true) (hw : i.wellFormed = true) (h : exec i s = .next t)
    (rest : runsTo n t u) : runsTo (n + 1) s u :=
  runsTo_succ n s t u ((step_of_mop_eq_encode turns busy hmop hm hw).trans h) rest

/-- The state right after an accepted HASH L (spec/44_host_and_sequencer.md R201). -/
def invocationStart (s : State) (len : U64) : State :=
  { afterTurn s with
    inlen := some len
    plen := none
    nblk := none
    h := noWords8
    wv := noWords8
    blocks := none
    blk := some 0
    mop := some (encode .padTerm)
    phase := .busy
    reply := .nothing }

theorem step_of_hashIssued {s : State} {len : U64} (h : hashIssued s len) :
    step s = .next (invocationStart s len) := by
  obtain ⟨accepts, turns⟩ := h
  have hphase : ¬ ((afterTurn s).phase = .busy ∨ (afterTurn s).phase = .fault) := by
    rcases accepts with hp | hp <;> simp [hp]
  rw [step_host s _ [] turns, hostTurn_command_of_ok (decodeHostCommand_hash len)]
  exact if_neg hphase

/-- The five padder steps on a length within both limits (R130 to R137): only PLEN, NBLK, BLOCKS and MOP change. -/
theorem runsTo_loadIv_of_padTerm {s : State} {len : U64} (turns : s.agenda = []) (busy : s.phase = .busy)
    (hmop : s.mop = some (encode .padTerm)) (hlen : s.inlen = some len)
    (accepted : len.toNat ≤ s.cfg.maxInputBytes.toNat) (fits : blockCount len.toNat ≤ s.cfg.maxBlocks) :
    ∃ bs, HoldsMessage s.input len bs ∧
      runsTo 5 s
        { s with
          plen := some (alignedLength (len + 1))
          nblk := some (blockCount len.toNat)
          blocks := some bs
          mop := some (encode .loadIv) } := by
  have bound : len.toNat < 2 ^ 61 := lt_of_le_of_lt accepted s.cfg.maxInputBytes.isLt
  obtain ⟨packed, hpack, stream⟩ := packWords_holdsStream s.input bound
  obtain ⟨bs, hwrite, holds⟩ := writeLength_holdsMessage stream
  refine ⟨bs, holds, ?_⟩
  refine runsTo_succ_of_mop .padTerm turns busy hmop rfl rfl (exec_padTerm_of_accepted hlen accepted) ?_
  refine runsTo_succ_of_mop .padAlign turns busy rfl rfl rfl (exec_padAlign_of_plen rfl) ?_
  refine runsTo_succ_of_mop .padAlloc turns busy rfl rfl rfl (exec_padAlloc_of_le hlen fits) ?_
  refine runsTo_succ_of_mop .padPack turns busy rfl rfl rfl (exec_padPack_of_packWords hlen rfl rfl hpack) ?_
  refine runsTo_succ_of_mop .padLen turns busy rfl rfl rfl (exec_padLen_of_writeLength hlen rfl rfl hwrite) ?_
  exact runsTo_zero _

/-- Settles O36: the HASH step, then the five padder steps. -/
theorem messageWordsAfterThePadder : Obligations.MessageWordsAfterThePadder := by
  intro s len issued accepted fits
  have turns : (invocationStart s len).agenda = [] := congrArg List.tail issued.2
  obtain ⟨bs, holds, run⟩ := runsTo_loadIv_of_padTerm turns rfl rfl rfl accepted fits
  exact ⟨_, bs, runsTo_succ 5 _ _ _ (step_of_hashIssued issued) run, rfl, rfl, rfl, rfl,
    holds.length, holds.message, holds.expanded⟩

end Sys2Proof.Machine
end

section
/-!
PROOFS. What SCHED i does where block BLK is in the array (spec/42_schedule.md R160).
-/

namespace Sys2Proof.Machine

section
variable {s : State} {i : BitVec 6} {b : Nat} {bs : List Block} {cur : Block} (hi : 16 ≤ i.toNat)
  (hblk : s.blk = some b) (hbs : s.blocks = some bs) (hcur : bs[b]? = some cur)
include hi hblk hbs hcur

/-- From index 16 on, SCHED goes straight to reading its four operands from block BLK. -/
theorem exec_sched_of_currentBlock :
    exec (.sched i) s =
      withValue (blockGet cur (i.toNat - 2)) s fun x2 =>
      withValue (blockGet cur (i.toNat - 7)) s fun x7 =>
      withValue (blockGet cur (i.toNat - 15)) s fun x15 =>
      withValue (blockGet cur (i.toNat - 16)) s fun x16 =>
        .next (advance (.sched i)
          { s with blocks := some (bs.set b (blockSet cur i.toNat (schedWord x2 x7 x15 x16))) }) :=
  (if_neg (not_lt.mpr hi)).trans (withCurrentBlock_eq s _ b bs cur hblk hbs hcur)

theorem exec_sched_of_operand_eq_none
    (h : blockGet cur (i.toNat - 2) = none ∨ blockGet cur (i.toNat - 7) = none ∨
      blockGet cur (i.toNat - 15) = none ∨ blockGet cur (i.toNat - 16) = none) :
    exec (.sched i) s = .next (faultEntry .unwrittenRead s) := by
  rw [exec_sched_of_currentBlock hi hblk hbs hcur]
  rcases h with h2 | h7 | h15 | h16
  · exact withValue_of_eq_none h2
  · exact withValue_of_raises fun _ => withValue_of_eq_none h7
  · exact withValue_of_raises fun _ => withValue_of_raises fun _ => withValue_of_eq_none h15
  · exact withValue_of_raises fun _ => withValue_of_raises fun _ => withValue_of_raises fun _ =>
      withValue_of_eq_none h16

theorem exec_sched_of_operands {x2 x7 x15 x16 : Word} (h2 : blockGet cur (i.toNat - 2) = some x2)
    (h7 : blockGet cur (i.toNat - 7) = some x7) (h15 : blockGet cur (i.toNat - 15) = some x15)
    (h16 : blockGet cur (i.toNat - 16) = some x16) :
    exec (.sched i) s = .next
      { s with
        blocks := some (bs.set b (blockSet cur i.toNat (schedWord x2 x7 x15 x16)))
        mop := some (if i.toNat < 63 then encode (.sched (i + 1)) else encode .initWork) } := by
  rw [exec_sched_of_currentBlock hi hblk hbs hcur, ← apply_ite encode]
  simp only [h2, h7, h15, h16, withValue_some]
  rfl

end

/-- Settles O37: the operands are read first, then one word of block BLK is written. -/
theorem schedRule : Obligations.SchedRule := by
  refine ⟨fun _ => rfl, fun s i b bs cur hi hblk hbs hcur => ?_⟩
  refine ⟨exec_sched_of_operand_eq_none hi hblk hbs hcur, fun x2 x7 x15 x16 h2 h7 h15 h16 => ?_⟩
  refine ⟨_, exec_sched_of_operands hi hblk hbs hcur h2 h7 h15 h16, List.length_set, fun c j => ?_⟩
  have inBlock : i.toNat < 64 := i.isLt
  have place : c = b ∧ i.toNat = j ∧ i.toNat < 64 ↔ c = b ∧ j = i.toNat := by omega
  exact (wordAt_set_blockSet bs b i.toNat _ cur hcur c j).trans (if_congr place rfl rfl)

end Sys2Proof.Machine
end

section
/-!
PROOFS. The 48 SCHED steps of a block: after each, one word more of the block is its message schedule's
(spec/42_schedule.md R162).
-/

namespace Sys2Proof.Machine

/-- The first n words of the block are those of the schedule of the message words m. -/
def HoldsSchedule (m : Nat → Word) (n : Nat) (cur : Block) : Prop :=
  ∀ j, j < n → blockGet cur j = some (schedule m j)

theorem schedule_of_lt {m : Nat → Word} {n : Nat} (h : n < 16) : schedule m n = m n := by
  rw [schedule_eq, if_pos h]

theorem schedule_of_ge {m : Nat → Word} {n : Nat} (h : 16 ≤ n) :
    schedule m n =
      schedWord (schedule m (n - 2)) (schedule m (n - 7)) (schedule m (n - 15)) (schedule m (n - 16)) := by
  rw [schedule_eq, if_neg (not_lt.mpr h)]

/-- The 16 message words are the start of their schedule. -/
theorem holdsSchedule_of_message {m : Nat → Word} {cur : Block} (h : ∀ j, j < 16 → blockGet cur j = some (m j)) :
    HoldsSchedule m 16 cur := by
  intro j hj
  rw [h j hj, schedule_of_lt hj]

theorem holdsSchedule_blockSet {m : Nat → Word} {n : Nat} {cur : Block} (h : HoldsSchedule m n cur) (hn : n < 64) :
    HoldsSchedule m (n + 1) (blockSet cur n (schedule m n)) := by
  intro j hj
  rw [blockGet_blockSet]
  by_cases last : n = j
  · rw [if_pos ⟨last, hn⟩, last]
  · rw [if_neg (fun h => last h.1), h j (by omega)]

/-- The word of SCHED n, or of INIT_WORK where the schedule is complete (spec/44_host_and_sequencer.md R207). -/
def schedMop (n : Nat) : OpWord := if n < 64 then encode (.sched (BitVec.ofNat 6 n)) else encode .initWork

/-- The state at SCHED n of block b, which by now is `cur`; at n = 64 it is the state at INIT_WORK. -/
def schedState (s : State) (bs : List Block) (b n : Nat) (cur : Block) : State :=
  { s with blocks := some (bs.set b cur), mop := some (schedMop n) }

/-- SCHED i's successor is at the next index, or at INIT_WORK after the last. -/
theorem schedMop_succ (i : BitVec 6) :
    (if i.toNat < 63 then encode (.sched (i + 1)) else encode .initWork) = schedMop (i.toNat + 1) := by
  unfold schedMop
  by_cases last : i.toNat < 63
  · rw [if_pos last, if_pos (by omega), BitVec.ofNat_add, BitVec.ofNat_toNat, BitVec.setWidth_eq]
    rfl
  · rw [if_neg last, if_neg (by omega)]

section
variable {s : State} {b : Nat} {bs : List Block} {cur : Block} {m : Nat → Word} (turns : s.agenda = [])
  (busy : s.phase = .busy) (hblk : s.blk = some b) (hb : b < bs.length)
include turns busy hblk hb

/-- One SCHED step writes the next word of the schedule. -/
theorem step_schedState {n : Nat} (hlo : 16 ≤ n) (hhi : n < 64) (holds : HoldsSchedule m n cur) :
    step (schedState s bs b n cur) = .next (schedState s bs b (n + 1) (blockSet cur n (schedule m n))) := by
  obtain ⟨i, rfl⟩ : ∃ i : BitVec 6, n = i.toNat := ⟨BitVec.ofNat 6 n, by rw [BitVec.toNat_ofNat]; omega⟩
  have hmop : (schedState s bs b i.toNat cur).mop = some (encode (.sched i)) := by
    rw [schedState, schedMop, if_pos hhi, BitVec.ofNat_toNat, BitVec.setWidth_eq]
  have ran := exec_sched_of_operands (s := schedState s bs b i.toNat cur) hlo hblk rfl (List.getElem?_set_self hb)
    (holds _ (by omega)) (holds _ (by omega)) (holds _ (by omega)) (holds _ (by omega))
  rw [List.set_set, schedMop_succ, ← schedule_of_ge hlo] at ran
  exact (step_of_mop_eq_encode (s := schedState s bs b i.toNat cur) turns busy hmop rfl (decide_eq_true hlo)).trans ran

/-- The remaining SCHED steps of the block complete its schedule. -/
theorem runsTo_schedState {k n : Nat} (hlo : 16 ≤ n) (hk : n + k = 64) (holds : HoldsSchedule m n cur) :
    ∃ cur', HoldsSchedule m 64 cur' ∧ runsTo k (schedState s bs b n cur) (schedState s bs b 64 cur') := by
  induction k generalizing n cur with
  | zero =>
    obtain rfl : n = 64 := hk
    exact ⟨cur, holds, runsTo_zero _⟩
  | succ k ih =>
    have hhi : n < 64 := by omega
    obtain ⟨cur', complete, rest⟩ := ih (n := n + 1) (by omega) (by omega) (holdsSchedule_blockSet holds hhi)
    exact ⟨cur', complete, runsTo_succ k _ _ _ (step_schedState turns busy hblk hb hlo hhi holds) rest⟩

end

/-- A state at SCHED 16 of a block that is in the array. -/
theorem schedState_self {s : State} {b : Nat} {bs : List Block} {cur : Block} (hmop : s.mop = some (encode (.sched 16)))
    (hbs : s.blocks = some bs) (hcur : bs[b]? = some cur) : schedState s bs b 16 cur = s := by
  obtain ⟨hb, rfl⟩ := List.getElem?_eq_some_iff.mp hcur
  obtain ⟨⟩ := s
  cases hmop
  cases hbs
  rw [schedState, List.set_getElem_self]
  rfl

theorem wordAt_set {bs : List Block} {b : Nat} (hb : b < bs.length) (cur : Block) (c j : Nat) :
    wordAt (bs.set b cur) c j = if c = b then blockGet cur j else wordAt bs c j := by
  unfold wordAt
  by_cases hc : c = b
  · rw [if_pos hc, hc, List.getElem?_set_self hb]
  · rw [if_neg hc, List.getElem?_set_ne (Ne.symm hc)]

/-- Settles O38, by induction on the SCHED steps that remain. -/
theorem scheduleOfABlock : Obligations.ScheduleOfABlock := by
  refine ⟨schedule_eq, fun s m b bs cur busy turns hmop hblk hbs hcur message => ?_⟩
  obtain ⟨hb, -⟩ := List.getElem?_eq_some_iff.mp hcur
  obtain ⟨cur', complete, run⟩ :=
    runsTo_schedState turns busy hblk hb (k := 48) le_rfl rfl (holdsSchedule_of_message message)
  rw [schedState_self hmop hbs hcur] at run
  refine ⟨bs.set b cur', run, List.length_set, fun c j hj => ?_⟩
  rw [wordAt_set hb, complete j hj]

end Sys2Proof.Machine
end

section
/-!
PROOFS. What LOAD_IV and INIT_WORK do (spec/43_compression.md R172, R173).
-/

namespace Sys2Proof.Machine

/-- An array with an element that holds no value does not read as eight words (spec/43_compression.md R173 to R175). -/
theorem readWords8_eq_none_of_words8Get {x : Words8 (Option Word)} {j : BitVec 3} (h : words8Get x j = none) :
    readWords8 x = none := by
  by_contra hx
  obtain ⟨v, hv⟩ := Option.ne_none_iff_exists'.mp hx
  rw [(readWords8_eq_some x v).mp hv, words8Get_someWords8] at h
  cases h

/-- Settles O39: LOAD_IV reads nothing, so its effect is the same from every state. -/
theorem loadIvRule : Obligations.LoadIvRule :=
  ⟨rfl, fun _ => ⟨some 0, fun _ => rfl, rfl⟩⟩

theorem exec_initWork_of_words {s : State} {d : Words8 Word} (hd : s.h = someWords8 d) :
    exec .initWork s = .next { s with wv := someWords8 d, mop := some (encode (.round 0)) } := by
  simp only [exec, execInitWork, hd, readWords8_someWords8, withValue_some]
  rfl

theorem exec_initWork_of_eq_none {s : State} {j : BitVec 3} (h : words8Get s.h j = none) :
    exec .initWork s = .next (faultEntry .unwrittenRead s) :=
  withValue_of_eq_none (readWords8_eq_none_of_words8Get h)

/-- Settles O40: H read as eight words, or not. -/
theorem initWorkRule : Obligations.InitWorkRule :=
  ⟨rfl, fun _ _ => exec_initWork_of_words, fun _ _ => exec_initWork_of_eq_none⟩

end Sys2Proof.Machine
end

section
/-!
PROOFS. What ROUND i does where block BLK is in the array (spec/43_compression.md R174).
-/

namespace Sys2Proof.Machine

section
variable {s : State} {i : BitVec 6} {b : Nat} {bs : List Block} {cur : Block}
  (hblk : s.blk = some b) (hbs : s.blocks = some bs) (hcur : bs[b]? = some cur)
include hblk hbs hcur

/-- ROUND goes straight to reading W[i] of block BLK and a..h. -/
theorem exec_round_of_currentBlock :
    exec (.round i) s =
      withValue (blockGet cur i.toNat) s fun w =>
      withValue (readWords8 s.wv) s fun v =>
        .next (advance (.round i) { s with wv := someWords8 (roundWords v (romK i.toNat) w) }) :=
  withCurrentBlock_eq s _ b bs cur hblk hbs hcur

theorem exec_round_of_operand_eq_none (h : blockGet cur i.toNat = none ∨ ∃ j, words8Get s.wv j = none) :
    exec (.round i) s = .next (faultEntry .unwrittenRead s) := by
  rw [exec_round_of_currentBlock hblk hbs hcur]
  rcases h with hw | ⟨j, hj⟩
  · exact withValue_of_eq_none hw
  · exact withValue_of_raises fun _ => withValue_of_eq_none (readWords8_eq_none_of_words8Get hj)

theorem exec_round_of_operands {w : Word} {v : Words8 Word} (hw : blockGet cur i.toNat = some w)
    (hv : s.wv = someWords8 v) :
    exec (.round i) s = .next
      { s with
        wv := someWords8 (roundWords v (romK i.toNat) w)
        mop := some (if i.toNat < 63 then encode (.round (i + 1)) else encode .addState) } := by
  rw [exec_round_of_currentBlock hblk hbs hcur, ← apply_ite encode]
  simp only [hw, hv, readWords8_someWords8, withValue_some]
  rfl

end

/-- Settles O41: W[i] and a..h are read first, then T1 and T2 give the new a..h. -/
theorem roundRule : Obligations.RoundRule := by
  refine ⟨fun _ => rfl, fun s i b bs cur hblk hbs hcur => ?_⟩
  refine ⟨exec_round_of_operand_eq_none hblk hbs hcur, fun w a b c d e f g h hw hv => ?_⟩
  exact ⟨roundT1 ⟨a, b, c, d, e, f, g, h⟩ (romK i.toNat) w, roundT2 ⟨a, b, c, d, e, f, g, h⟩, rfl, rfl,
    exec_round_of_operands hblk hbs hcur hw hv⟩

end Sys2Proof.Machine
end

section
/-!
PROOFS. What ADD_STATE does (spec/43_compression.md R175, spec/44_host_and_sequencer.md R207).
-/

namespace Sys2Proof.Machine

theorem exec_addState_of_operand_eq_none {s : State} {j : BitVec 3}
    (h : words8Get s.h j = none ∨ words8Get s.wv j = none) :
    exec .addState s = .next (faultEntry .unwrittenRead s) := by
  rcases h with hh | hwv
  · exact withValue_of_eq_none (readWords8_eq_none_of_words8Get hh)
  · exact withValue_of_raises fun _ => withValue_of_eq_none (readWords8_eq_none_of_words8Get hwv)

/-- ADD_STATE on a block below NBLK: the successor is at the next block, or it is FINISH and BLK stays. -/
theorem exec_addState_of_operands {s : State} {x y : Words8 Word} {b n : Nat} (hx : s.h = someWords8 x)
    (hy : s.wv = someWords8 y) (hblk : s.blk = some b) (hnblk : s.nblk = some n) (hb : b < n) :
    exec .addState s = .next
      { s with
        h := someWords8 (addWords x y)
        blk := some (if b + 1 < n then b + 1 else b)
        mop := some (if b + 1 < n then encode (.sched 16) else encode .finish) } := by
  simp only [exec, execAddState, hx, hy, hblk, hnblk, readWords8_someWords8, withValue_some]
  by_cases more : b + 1 < n
  · simp only [if_pos more]
    rfl
  · have last : b + 1 = n := by omega
    simp only [if_neg more, if_pos last, ← hblk]
    rfl

/-- Settles O42: H and a..h read as eight words each, or not. -/
theorem addStateRule : Obligations.AddStateRule :=
  ⟨rfl, fun _ _ => exec_addState_of_operand_eq_none, fun _ _ _ _ _ => exec_addState_of_operands⟩

end Sys2Proof.Machine
end

section
/-!
PROOFS. The 66 steps that compress a block: INIT_WORK, one step for each of the 64 rounds, and ADD_STATE
(spec/43_compression.md R176).
-/

namespace Sys2Proof.Machine

/-- The word of ROUND n, or of ADD_STATE where the rounds are complete (spec/44_host_and_sequencer.md R207). -/
def roundMop (n : Nat) : OpWord := if n < 64 then encode (.round (BitVec.ofNat 6 n)) else encode .addState

/-- The state at ROUND n of a block whose schedule is w and whose rounds start from a..h = st; at n = 64 it is the
state at ADD_STATE. -/
def roundState (s : State) (w : Nat → Word) (st : Words8 Word) (n : Nat) : State :=
  { s with wv := someWords8 (roundsFrom w st n), mop := some (roundMop n) }

/-- ROUND i's successor is at the next index, or at ADD_STATE after the last. -/
theorem roundMop_succ (i : BitVec 6) :
    (if i.toNat < 63 then encode (.round (i + 1)) else encode .addState) = roundMop (i.toNat + 1) := by
  have inside : i.toNat < 63 ↔ i.toNat + 1 < 64 := by omega
  rw [roundMop, BitVec.ofNat_add, BitVec.ofNat_toNat, BitVec.setWidth_eq]
  exact if_congr inside rfl rfl

section
variable {s : State} {b : Nat} {bs : List Block} {cur : Block} {w : Nat → Word} (st : Words8 Word)
  (turns : s.agenda = []) (busy : s.phase = .busy) (hblk : s.blk = some b) (hbs : s.blocks = some bs)
  (hcur : bs[b]? = some cur) (holds : ∀ i, i < 64 → blockGet cur i = some (w i))
include turns busy hblk hbs hcur holds

/-- One ROUND step takes a..h one round further. -/
theorem step_roundState {n : Nat} (hn : n < 64) : step (roundState s w st n) = .next (roundState s w st (n + 1)) := by
  obtain ⟨i, rfl⟩ : ∃ i : BitVec 6, n = i.toNat := ⟨BitVec.ofNat 6 n, by rw [BitVec.toNat_ofNat]; omega⟩
  have hmop : (roundState s w st i.toNat).mop = some (encode (.round i)) := by
    rw [roundState, roundMop, if_pos hn, BitVec.ofNat_toNat, BitVec.setWidth_eq]
  have ran := exec_round_of_operands (s := roundState s w st i.toNat) hblk hbs hcur (holds _ hn) rfl
  rw [roundMop_succ] at ran
  exact (step_of_mop_eq_encode (s := roundState s w st i.toNat) turns busy hmop rfl rfl).trans ran

/-- The first n ROUND steps of the block. -/
theorem runsTo_roundState {n : Nat} (hn : n ≤ 64) : runsTo n (roundState s w st 0) (roundState s w st n) := by
  induction n with
  | zero => exact runsTo_zero _
  | succ n ih =>
    have round := step_roundState st turns busy hblk hbs hcur holds (n := n) hn
    exact runsTo_trans n 1 _ _ _ (ih (by omega)) (runsTo_one _ _ round)

end

/-- Settles O43: INIT_WORK makes a..h the words of H, the rounds run on them, ADD_STATE adds the words of H again. -/
theorem compressionOfABlock : Obligations.CompressionOfABlock := by
  intro s st w b n bs cur busy turns hmop hst hblk hnblk hb hbs hcur holds
  have init := exec_initWork_of_words hst
  have rounds := runsTo_roundState st turns busy hblk hbs hcur holds le_rfl
  have add := exec_addState_of_operands (s := roundState s w st 64) hst rfl hblk hnblk hb
  have last := runsTo_succ_of_mop (s := roundState s w st 64) .addState turns busy rfl rfl rfl add (runsTo_zero _)
  exact ⟨someWords8 (roundsFrom w st 64),
    runsTo_succ_of_mop .initWork turns busy hmop rfl rfl init (runsTo_trans 64 1 _ _ _ rounds last)⟩

end Sys2Proof.Machine
end

section
/-!
PROOFS. The constant tables are the fractional bits of roots of the first primes (spec/43_compression.md R171, log 16).
-/

namespace Sys2Proof.Machine

/-- n is at least 2, and no prime below 18 divides it but n itself. -/
def passesTrialDivision (n : Nat) : Bool :=
  decide (2 ≤ n) && [2, 3, 5, 7, 11, 13, 17].all fun p => n % p != 0 || n == p

theorem passesTrialDivision_iff {n : Nat} :
    passesTrialDivision n = true ↔ 2 ≤ n ∧ ∀ p ∈ [2, 3, 5, 7, 11, 13, 17], p ∣ n → n = p := by
  simp only [passesTrialDivision, Bool.and_eq_true, decide_eq_true_eq, List.all_eq_true, Bool.or_eq_true, bne_iff_ne,
    beq_iff_eq, Nat.dvd_iff_mod_eq_zero, ne_eq, or_iff_not_imp_left, not_not]

/-- Below 18², trial division by the primes below 18 decides primality: a composite number's least factor is at most
its root. -/
theorem prime_iff_passesTrialDivision {n : Nat} (h : n < 18 ^ 2) : n.Prime ↔ passesTrialDivision n = true := by
  rw [passesTrialDivision_iff]
  constructor
  · intro prime
    refine ⟨prime.two_le, fun p listed divides => ?_⟩
    have proper : p ≠ 1 := by rintro rfl; revert listed; decide
    exact ((prime.eq_one_or_self_of_dvd p divides).resolve_left proper).symm
  · rintro ⟨two_le, trial⟩
    by_contra composite
    have small : n.minFac < 18 :=
      lt_of_pow_lt_pow_left₀ 2 (by decide) ((Nat.minFac_sq_le_self (by omega) composite).trans_lt h)
    have prime : n.minFac.Prime := Nat.minFac_prime (by omega)
    have complete : ∀ p < 18, p.Prime → p ∈ [2, 3, 5, 7, 11, 13, 17] := by decide
    have self : n = n.minFac := trial _ (complete _ small prime) n.minFac_dvd
    exact composite (self ▸ prime)

theorem firstPrimes_eq_filter_passesTrialDivision : firstPrimes = (List.range 312).filter passesTrialDivision := by
  decide

theorem firstPrimes_eq_filter_prime : firstPrimes = (List.range 312).filter (fun n => decide (Nat.Prime n)) := by
  rw [firstPrimes_eq_filter_passesTrialDivision]
  refine List.filter_congr fun n hn => ?_
  have below := List.mem_range.mp hn
  rw [Bool.eq_iff_iff, decide_eq_true_iff, prime_iff_passesTrialDivision (by omega)]

/-- Settles O27: the primes by trial division; then for each constant some q below the bound meets the two exact
inequalities. -/
theorem romsAreRootsOfPrimes : Obligations.RomsAreRootsOfPrimes :=
  ⟨firstPrimes_eq_filter_prime, by decide, by decide⟩

end Sys2Proof.Machine
end

section
/-!
PROOFS. The engine's turn and the host's actions one by one: what a step performs, and which phase accepts what
(spec/44_host_and_sequencer.md R200 to R206, R210, R215).
-/

namespace Sys2Proof.Machine

/-- Settles O6, by whose turn it is. -/
theorem stepRunsTheDecodedInstruction : Obligations.StepRunsTheDecodedInstruction := by
  refine ⟨fun s w i turn busy hmop hd => ?_, fun s w operand rest i turn hd => ?_⟩
  · rw [step_engine s turn]
    exact engineTurn_of_decodeMop busy hmop hd
  · rw [step_host s _ rest turn]
    exact hostTurn_command_of_ok hd

theorem engineTurn_of_not_busy {s : State} (h : s.phase ≠ .busy) : engineTurn s = .next s :=
  if_neg h

/-- Settles O8: outside BUSY the engine's turn is only taken off the agenda. -/
theorem engineWaitsOutsideBusy : Obligations.EngineWaitsOutsideBusy := by
  intro s turn notBusy
  rw [step_engine s turn]
  exact engineTurn_of_not_busy notBusy

/-- Settles O11: RESET reads nothing, so its effect is the same from every state. -/
theorem resetCommand : Obligations.ResetCommand :=
  ⟨rfl, fun _ => rfl⟩

/-- Settles O44: FINISH reads nothing, so its effect is the same from every state. -/
theorem finishRule : Obligations.FinishRule :=
  ⟨rfl, fun _ => rfl⟩

theorem exec_readDigest_of_word {s : State} {j : BitVec 3} {w : Word} (done : s.phase = .done)
    (hw : words8Get s.h j = some w) : exec (.readDigest j) s = .next { s with reply := .word w } := by
  simp [exec, execReadDigest, done, hw]

theorem exec_readDigest_of_not_done {s : State} {j : BitVec 3} (h : s.phase ≠ .done) :
    exec (.readDigest j) s = .next (afterRefusal .digestNotReady s) :=
  if_pos h

theorem encode_readDigest : ∀ j, encode (.readDigest j) = 0#5 ++ j ++ 0x03#8 := by decide

/-- Settles O13, by the phase. -/
theorem readDigestOnlyInDone : Obligations.ReadDigestOnlyInDone :=
  ⟨encode_readDigest, fun _ _ _ => exec_readDigest_of_word, fun _ _ => exec_readDigest_of_not_done⟩

theorem exec_hash_of_accepted {s : State} {len : U64} (h : s.phase = .idle ∨ s.phase = .done) :
    exec (.hash len) s = .next
      { s with
        inlen := some len, plen := none, nblk := none, h := noWords8, wv := noWords8, blocks := none
        blk := some 0, mop := some (encode .padTerm), phase := .busy, reply := .nothing } := by
  have accepts : ¬ (s.phase = .busy ∨ s.phase = .fault) := by
    rcases h with hp | hp <;> simp [hp]
  exact if_neg accepts

theorem exec_hash_of_refused {s : State} {len : U64} (h : s.phase = .busy ∨ s.phase = .fault) :
    exec (.hash len) s = .next (afterRefusal .hashNotAccepted s) :=
  if_pos h

/-- Settles O14, by the phase. -/
theorem hashStartsAnInvocation : Obligations.HashStartsAnInvocation :=
  ⟨fun _ => ⟨rfl, rfl⟩, fun _ _ => exec_hash_of_accepted, fun _ _ => exec_hash_of_refused⟩

theorem hostWriteIn_of_not_busy {s : State} (k : U64) (v : Byte) (h : s.phase ≠ .busy) :
    hostWriteIn k v s = .next { s with input := memWrite s.input k.toNat v, reply := .nothing } :=
  if_neg h

theorem hostWriteIn_of_busy {s : State} (k : U64) (v : Byte) (h : s.phase = .busy) :
    hostWriteIn k v s = .next (afterRefusal .inputWriteWhileBusy s) :=
  if_pos h

/-- Settles O15, by the read after a write of the input space. -/
theorem inputWriteRule : Obligations.InputWriteRule := by
  refine ⟨fun s k v rest turn wf notBusy => ?_, fun s k v rest turn busy => ?_⟩
  · refine ⟨{ afterTurn s with input := memWrite s.input k.toNat v, reply := .nothing }, ?_,
      memRead_memWrite_self s.input 0 k.toNat v wf, fun j => memRead_memWrite_other s.input k.toNat j v,
      memWf_memWrite s.input k.toNat v k.isLt wf, sameEngine_refl s, rfl, rfl, congrArg List.tail turn⟩
    rw [step_host s _ rest turn]
    exact hostWriteIn_of_not_busy k v notBusy
  · rw [step_host s _ rest turn]
    exact hostWriteIn_of_busy k v busy

theorem words8Get_of_allHold {x : Words8 (Option Word)} (h : allHold x) (j : BitVec 3) :
    ∃ w, words8Get x j = some w := by
  obtain ⟨v, hv⟩ := Option.isSome_iff_exists.mp h
  rw [(readWords8_eq_some x v).mp hv]
  exact ⟨_, words8Get_someWords8 v j⟩

/-- The acceptance table of R200, one command after another. -/
theorem exec_hostCommand_acceptance {i : Instr} {s : State} (hi : isMicroOp i = false)
    (digest : s.phase = .done → allHold s.h) :
    ∃ t, exec i s = .next t ∧ (acceptedIn i s.phase → t.refused = s.refused ∧ ∀ r, t.reply ≠ .refused r) ∧
      (¬ acceptedIn i s.phase → ∃ r, t = afterRefusal r s) := by
  cases i with
  | hash len =>
    by_cases accepted : s.phase = .idle ∨ s.phase = .done
    · exact ⟨_, exec_hash_of_accepted accepted, fun _ => ⟨rfl, nofun⟩, absurd accepted⟩
    · have refuses : s.phase = .busy ∨ s.phase = .fault := by
        cases hp : s.phase <;> simp [hp] at accepted ⊢
      exact ⟨_, exec_hash_of_refused refuses, fun h => absurd h accepted, fun _ => ⟨_, rfl⟩⟩
  | readStatus => exact ⟨_, rfl, fun _ => ⟨rfl, nofun⟩, absurd trivial⟩
  | readDigest j =>
    by_cases done : s.phase = .done
    · obtain ⟨w, hw⟩ := words8Get_of_allHold (digest done) j
      exact ⟨_, exec_readDigest_of_word done hw, fun _ => ⟨rfl, nofun⟩, absurd done⟩
    · exact ⟨_, exec_readDigest_of_not_done done, fun h => absurd h done, fun _ => ⟨_, rfl⟩⟩
  | reset => exact ⟨_, rfl, fun _ => ⟨rfl, nofun⟩, absurd trivial⟩
  | padTerm | padAlign | padAlloc | padPack | padLen | loadIv | sched | initWork | round | addState | finish => cases hi

/-- Settles O16: the commands by the table of R200, the byte write by the phase. -/
theorem acceptanceByPhase : Obligations.AcceptanceByPhase := by
  refine ⟨fun i s => exec_hostCommand_acceptance, fun k v s => ?_⟩
  by_cases busy : s.phase = .busy
  · exact ⟨_, hostWriteIn_of_busy k v busy, absurd busy, fun _ => rfl⟩
  · exact ⟨_, hostWriteIn_of_not_busy k v busy, fun _ => ⟨rfl, nofun⟩, fun h => absurd h busy⟩

/-- In BUSY a HASH is refused like every other word that would change the engine, except RESET's. -/
theorem hostTurn_sameEngine_of_busy {a : HostAction} {s t : State} (busy : s.phase = .busy)
    (notReset : ∀ operand, a ≠ .command 0x000F operand) (h : hostTurn a s = .next t) : sameEngine s t := by
  rcases hostTurn_sameEngine h with same | ⟨w, operand, rfl, rfl | rfl⟩
  · exact same
  · rw [hostTurn_command_of_ok (decodeHostCommand_hash operand), exec_hash_of_refused (.inl busy)] at h
    cases h
    exact sameEngine_refl s
  · exact absurd rfl (notReset operand)

/-- A step takes its turn off the agenda and leaves the rest of it. -/
theorem step_agenda {s t : State} (h : step s = .next t) : t.agenda = s.agenda.tail := by
  cases step_next h with
  | waits _ _ eq | faults _ _ _ _ eq | refuses _ _ _ _ eq | writes _ _ _ _ _ eq => rw [eq]; rfl
  | performs _ _ effect | accepts _ _ _ effect => exact effect.agenda

theorem step_input_of_busy {s t : State} (busy : s.phase = .busy) (h : step s = .next t) : t.input = s.input := by
  rcases step_input h with ⟨k, v, rest, -, notBusy⟩ | same
  · exact absurd busy notBusy
  · exact same

/-- Settles O19, by what a host turn does in BUSY. -/
theorem hostCannotDisturbAnInvocation : Obligations.HostCannotDisturbAnInvocation := by
  intro s a rest busy turn notReset
  obtain ⟨t, ht⟩ := hostTurn_answers a (afterTurn s)
  have hs : step s = .next t := (step_host s a rest turn).trans ht
  refine ⟨t, hs, hostTurn_sameEngine_of_busy (s := afterTurn s) busy notReset ht, step_input_of_busy busy hs, ?_⟩
  rw [step_agenda hs, turn, List.tail_cons]

end Sys2Proof.Machine
end

section
/-!
PROOFS. What each micro-operation that completes writes into MOP and BLK, and what it leaves unchanged
(spec/44_host_and_sequencer.md R207, R210; spec/41_padder.md, 42_schedule.md, 43_compression.md).
-/

namespace Sys2Proof.Machine

/-- The registers of the engine after micro-operation i has completed: MOP has the fixed successor, where i has one, and
the others stay unless i's own rule writes them. -/
structure Completed (i : Instr) (s t : State) : Prop where
  inlen : t.inlen = s.inlen
  faultCode : t.faultCode = s.faultCode
  phase : i ≠ .finish → t.phase = s.phase
  plen : i ≠ .padTerm → i ≠ .padAlign → i ≠ .finish → t.plen = s.plen
  nblk : i ≠ .padAlloc → i ≠ .finish → t.nblk = s.nblk
  blocks : i ≠ .padAlloc → i ≠ .padPack → i ≠ .padLen → (∀ n, i ≠ .sched n) → i ≠ .finish → t.blocks = s.blocks
  h : i ≠ .loadIv → i ≠ .addState → t.h = s.h
  wv : i ≠ .initWork → (∀ n, i ≠ .round n) → i ≠ .finish → t.wv = s.wv
  blk : i ≠ .loadIv → i ≠ .addState → i ≠ .finish → t.blk = s.blk
  mop : i ≠ .addState → t.mop = (nextOp i).map encode

/-- A micro-operation that answers outside FAULT has completed. -/
theorem exec_microOp_completed {i : Instr} {s t : State} (hi : isMicroOp i = true) (h : exec i s = .next t)
    (ok : t.phase ≠ .fault) : Completed i s t := by
  have notFaulted : ¬ faulted s t := by
    rintro ⟨c, -, rfl⟩
    exact ok rfl
  cases i with
  | padTerm =>
    obtain ⟨len, -, -, rfl⟩ := (execPadTerm_next h).resolve_left notFaulted
    constructor <;> simp
  | padAlign =>
    obtain ⟨p, -, rfl⟩ := (execPadAlign_next h).resolve_left notFaulted
    constructor <;> simp
  | padAlloc =>
    obtain ⟨len, -, -, rfl⟩ := (execPadAlloc_next h).resolve_left notFaulted
    constructor <;> simp
  | padPack =>
    obtain ⟨len, p, bs, bs', -, -, -, -, rfl⟩ := (execPadPack_next h).resolve_left notFaulted
    constructor <;> simp
  | padLen =>
    obtain ⟨len, n, bs, bs', -, -, -, -, rfl⟩ := (execPadLen_next h).resolve_left notFaulted
    constructor <;> simp
  | loadIv =>
    cases h
    constructor <;> simp
  | sched n =>
    obtain ⟨b, bs, cur, x2, x7, x15, x16, -, -, -, -, -, -, -, -, rfl⟩ := (execSched_next h).resolve_left notFaulted
    constructor <;> simp
  | initWork =>
    obtain ⟨d, -, rfl⟩ := (execInitWork_next h).resolve_left notFaulted
    constructor <;> simp
  | round n =>
    obtain ⟨b, bs, cur, w, v, -, -, -, -, -, rfl⟩ := (execRound_next h).resolve_left notFaulted
    constructor <;> simp
  | addState =>
    obtain ⟨x, y, b, n, -, -, -, -, ⟨-, rfl⟩ | ⟨-, rfl⟩⟩ := (execAddState_next h).resolve_left notFaulted
    · constructor <;> simp
    · constructor <;> simp
  | finish =>
    cases h
    constructor <;> simp [nextOp]
  | hash | readStatus | readDigest | reset => cases hi

/-- The last two rows of R207, from any state that ADD_STATE completes in. -/
theorem exec_addState_successor {s t : State} (h : exec .addState s = .next t) (ok : t.phase ≠ .fault) :
    ∃ b n, s.blk = some b ∧ s.nblk = some n ∧
      ((b + 1 < n ∧ t.mop = some (encode (.sched 16)) ∧ t.blk = some (b + 1)) ∨
        (b + 1 = n ∧ t.mop = some (encode .finish) ∧ t.blk = some b)) := by
  rcases execAddState_next h with ⟨c, -, rfl⟩ | ⟨x, y, b, n, -, -, hblk, hnblk, ⟨more, rfl⟩ | ⟨last, rfl⟩⟩
  · exact absurd rfl ok
  · exact ⟨b, n, hblk, hnblk, .inl ⟨more, rfl, rfl⟩⟩
  · exact ⟨b, n, hblk, hnblk, .inr ⟨last, rfl, hblk⟩⟩

/-- Settles O9: each row of R207 is the successor function at its micro-operation. -/
theorem successorTable : Obligations.SuccessorTable := by
  intro s t _ ok
  have row (i j : Instr) (hi : isMicroOp i = true) (hj : nextOp i = some j) (hne : i ≠ .addState)
      (h : exec i s = .next t) : t.mop = some (encode j) := by
    rw [(exec_microOp_completed hi h ok).mop hne, hj, Option.map_some]
  refine ⟨row .padTerm .padAlign rfl rfl nofun, row .padAlign .padAlloc rfl rfl nofun,
    row .padAlloc .padPack rfl rfl nofun, row .padPack .padLen rfl rfl nofun, row .padLen .loadIv rfl rfl nofun,
    fun h => ⟨row .loadIv (.sched 16) rfl rfl nofun h, ?_⟩,
    fun n hn => row (.sched n) (.sched (n + 1)) rfl (congrArg some (if_pos hn)) nofun,
    row (.sched 63) .initWork rfl rfl nofun, row .initWork (.round 0) rfl rfl nofun,
    fun n hn => row (.round n) (.round (n + 1)) rfl (congrArg some (if_pos hn)) nofun,
    row (.round 63) .addState rfl rfl nofun, fun h => exec_addState_successor h ok, ?_,
    fun i hi h => ⟨(exec_microOp_completed hi h ok).blk, exec_microOp_mopLegal hi h⟩⟩
  · cases h
    exact fun _ => rfl
  · intro h
    cases h
    exact ⟨rfl, rfl, rfl⟩

/-- Settles O45: outside the engine nothing changes, in it only what the micro-operation's rule writes. -/
theorem microOpFrames : Obligations.MicroOpFrames := by
  intro i s t hi _ h ok
  have outside : EngineEffect s t := by
    rcases exec_microOp_next hi h with ⟨c, -, rfl⟩ | effect
    · exact absurd rfl ok
    · exact effect
  obtain ⟨inlen, faultCode, phase, plen, nblk, blocks, hh, wv, blk, -⟩ := exec_microOp_completed hi h ok
  exact ⟨⟨outside.cfg, fun k => by rw [outside.input], outside.refused, outside.agenda, outside.reply⟩,
    inlen, faultCode, phase, plen, nblk, blocks, hh, wv, blk⟩

end Sys2Proof.Machine
end

section
/-!
PROOFS. When a run ends and what its result is (spec/44_host_and_sequencer.md R220).
-/

namespace Sys2Proof.Machine

/-- An accepted HASH, whatever turns follow it (R201). -/
theorem step_of_hash {s : State} {len : U64} {rest : List Turn} (accepts : s.phase = .idle ∨ s.phase = .done)
    (turn : s.agenda = .host (.command 0x0001 len) :: rest) : step s = .next (invocationStart s len) := by
  rw [step_host s _ rest turn, hostTurn_command_of_ok (decodeHostCommand_hash len)]
  exact exec_hash_of_accepted accepts

theorem runFrom_of_refused {started : Bool} {n : Nat} {s t : State} (h : step s = .next t) (hr : t.refused = true) :
    runFrom started (n + 1) s = .noResult := by
  simp [runFrom, h, hr]

theorem runFrom_true_of_busy {n : Nat} {s t : State} (h : step s = .next t) (hr : t.refused = false)
    (busy : t.phase = .busy) : runFrom true (n + 1) s = runFrom true n t := by
  simp [runFrom_succ h hr, busy]

theorem runFrom_true_of_end {n : Nat} {s t : State} (h : step s = .next t) (hr : t.refused = false)
    (ended : t.phase = .done ∨ t.phase = .fault) : runFrom true (n + 1) s = .ended t := by
  rcases ended with hp | hp <;> simp [runFrom_succ h hr, hp]

theorem runResult_of_refused {n : Nat} {s : State} (hr : s.refused = true) : runResult n s = .noResult :=
  if_pos hr

/-- The run starts with the HASH that s accepts. -/
theorem runResult_succ_of_acceptsHash {n : Nat} {s t : State} (hr : s.refused = false) (accepts : acceptsHash s = true)
    (h : step s = .next t) : runResult (n + 1) s = runFrom true n t := by
  obtain ⟨⟨len, rest, turn⟩, hp⟩ := acceptsHash_iff.mp accepts
  obtain rfl : invocationStart s len = t := Host.Outcome.next.inj ((step_of_hash hp turn).symm.trans h)
  simp [runResult, hr, runFrom_succ h hr, accepts]

/-- A RESET abandons the run. -/
theorem runFrom_true_of_reset {n : Nat} {s : State} {operand : U64} {rest : List Turn}
    (turn : s.agenda = .host (.command 0x000F operand) :: rest) : runFrom true (n + 1) s = .noResult := by
  have hd : decodeHostCommand 0x000F operand = .ok .reset := rfl
  have hs : step s = .next { resetEngine (afterTurn s) with reply := .nothing } := by
    rw [step_host s _ rest turn, hostTurn_command_of_ok hd]
    rfl
  cases hr : s.refused with
  | true => exact runFrom_of_refused hs hr
  | false => rw [runFrom_succ hs hr]; rfl

theorem end_of_runFrom {started : Bool} {n : Nat} {s u : State} (h : runFrom started n s = .ended u) :
    (u.phase = .done ∨ u.phase = .fault) ∧ u.refused = false := by
  induction n generalizing started s with
  | zero => cases h
  | succ n ih =>
    obtain ⟨_, t, ⟨⟩, -, hr, ⟨-, ⟨-, rest⟩ | ⟨ended, rfl⟩⟩ | ⟨-, rest⟩⟩ := runFrom_ended h
    · exact ih rest
    · exact ⟨ended, hr⟩
    · exact ih rest

/-- A run that has ended has accepted a HASH on its way. -/
theorem acceptsHash_of_runFrom_false {n : Nat} {s u : State} (h : runFrom false n s = .ended u) :
    ∃ k x, k < n ∧ runsTo k s x ∧ acceptsHash x = true := by
  induction n generalizing s with
  | zero => cases h
  | succ n ih =>
    obtain ⟨_, t, ⟨⟩, hs, -, ⟨⟨⟩, -⟩ | ⟨-, rest⟩⟩ := runFrom_ended h
    cases accepts : acceptsHash s with
    | true => exact ⟨0, s, by omega, runsTo_zero s, accepts⟩
    | false =>
      rw [accepts] at rest
      obtain ⟨k, x, hk, run, hx⟩ := ih rest
      exact ⟨k + 1, x, by omega, runsTo_succ k s t x hs run, hx⟩

/-- The turns after a run's end are no part of it. -/
theorem runFrom_ended_of_le {started : Bool} {m n : Nat} {s u : State} (h : runFrom started n s = .ended u)
    (hm : n ≤ m) : runFrom started m s = .ended u := by
  induction n generalizing started m s with
  | zero => cases h
  | succ n ih =>
    obtain ⟨m, rfl⟩ : ∃ m', m = m' + 1 := ⟨m - 1, by omega⟩
    obtain ⟨_, t, ⟨⟩, hs, hr, ⟨rfl, ⟨busy, rest⟩ | ⟨ended, rfl⟩⟩ | ⟨rfl, rest⟩⟩ := runFrom_ended h
    · rw [runFrom_true_of_busy hs hr busy]
      exact ih rest (by omega)
    · exact runFrom_true_of_end hs hr ended
    · rw [runFrom_succ hs hr]
      exact ih rest (by omega)

theorem not_readsDigest_of_not_done {t : State} (h : t.phase ≠ .done) (d : Words8 Word) : ¬ readsDigest t d := by
  intro reads
  have answer := Host.Outcome.next.inj ((exec_readDigest_of_not_done h).symm.trans (reads 0))
  cases congrArg State.reply answer

theorem runResult_ended_iff {n : Nat} {s u : State} :
    runResult n s = .ended u ↔ s.refused = false ∧ runFrom false n s = .ended u := by
  cases hr : s.refused <;> simp [runResult, hr]

/-- Settles O58, by what one step does to a run, and by induction on the steps of a run that has ended. -/
theorem endOfARun : Obligations.EndOfARun := by
  refine ⟨fun n s t h => ?_, fun m n s t h hm => ?_, fun _ _ _ => runResult_succ_of_acceptsHash,
    fun _ _ _ => runFrom_true_of_end, fun _ _ _ => runFrom_true_of_busy, fun _ _ => runResult_of_refused,
    fun _ _ _ _ => runFrom_of_refused, fun _ _ _ _ => runFrom_true_of_reset⟩
  · obtain ⟨-, run⟩ := runResult_ended_iff.mp h
    obtain ⟨ended, hr⟩ := end_of_runFrom run
    refine ⟨ended.imp_right fun hp => ⟨hp, not_readsDigest_of_not_done ?_⟩, hr, acceptsHash_of_runFrom_false run⟩
    rw [hp]
    nofun
  · obtain ⟨hr, run⟩ := runResult_ended_iff.mp h
    exact runResult_ended_iff.mpr ⟨hr, runFrom_ended_of_le run hm⟩

end Sys2Proof.Machine
end

section
/-!
PROOFS. The whole invocation: the padder, LOAD_IV, 114 steps for each block, and FINISH leave the digest in H
(spec/44_host_and_sequencer.md R208, R211); an oversize length ends in FAULT instead (spec/60_exceptions.md R241, R242).
-/

namespace Sys2Proof.Machine

/-- Blocks b and above of an array of NBLK blocks still hold the message words of L bytes of `input`. -/
structure HoldsMessageFrom (input : Memory) (len : U64) (b : Nat) (bs : List Block) : Prop where
  length : bs.length = blockCount len.toNat
  message : ∀ c i, b ≤ c → c < blockCount len.toNat → i < 16 →
    wordAt bs c i = some (messageWord input len (16 * c + i))

theorem HoldsMessage.holdsMessageFrom {input : Memory} {len : U64} {bs : List Block} (h : HoldsMessage input len bs) :
    HoldsMessageFrom input len 0 bs :=
  ⟨h.length, fun c i _ hc hi => h.message c i (hc.trans_eq h.length.symm) hi⟩

theorem wordAt_of_getElem? {bs : List Block} {b : Nat} {cur : Block} (hcur : bs[b]? = some cur) (j : Nat) :
    wordAt bs b j = blockGet cur j := by
  rw [wordAt, hcur]

theorem HoldsMessageFrom.message_of_getElem? {input : Memory} {len : U64} {b : Nat} {bs : List Block} {cur : Block}
    (h : HoldsMessageFrom input len b bs) (hcur : bs[b]? = some cur) {i : Nat} (hi : i < 16) :
    blockGet cur i = some (messageWord input len (16 * b + i)) := by
  obtain ⟨hb, -⟩ := List.getElem?_eq_some_iff.mp hcur
  exact (wordAt_of_getElem? hcur i).symm.trans (h.message b i le_rfl (hb.trans_eq h.length) hi)

/-- The state at LOAD_IV, the block array being bs (spec/41_padder.md R137). -/
def paddedState (s : State) (len : U64) (bs : List Block) : State :=
  { s with
    plen := some (alignedLength (len + 1))
    nblk := some (blockCount len.toNat)
    blocks := some bs
    mop := some (encode .loadIv) }

/-- The state at SCHED 16 of block b: H holds S(b - 1) of R177. At b = NBLK it is the state at FINISH, and BLK has stayed
at the last block. -/
def blockState (s : State) (len : U64) (b : Nat) (bs : List Block) (wv : Words8 (Option Word)) : State :=
  { s with
    h := someWords8 (chainState s.input len b)
    wv := wv
    blk := some (if b < blockCount len.toNat then b else b - 1)
    blocks := some bs
    mop := some (if b < blockCount len.toNat then encode (.sched 16) else encode .finish) }

/-- The state in DONE that an invocation started in s with L bytes ends in (spec/44_host_and_sequencer.md R210, R211). -/
def digestState (s : State) (len : U64) : State :=
  { s with
    phase := .done
    h := someWords8 (digest s.input len)
    mop := none
    blk := none
    plen := none
    nblk := none
    wv := noWords8
    blocks := none }

theorem exec_loadIv_paddedState (s : State) (len : U64) (bs : List Block) :
    exec .loadIv (paddedState s len bs) = .next (blockState (paddedState s len bs) len 0 bs s.wv) := by
  have first : 0 < blockCount len.toNat := one_le_blockCount _
  simp only [blockState, if_pos first]
  rfl

theorem mop_blockState_blockCount (s : State) (len : U64) (bs : List Block) (wv : Words8 (Option Word)) :
    (blockState s len (blockCount len.toNat) bs wv).mop = some (encode .finish) :=
  congrArg some (if_neg (lt_irrefl _))

section
variable {s : State} {len : U64} (turns : s.agenda = []) (busy : s.phase = .busy)
include turns busy

section
variable (hnblk : s.nblk = some (blockCount len.toNat))
include hnblk

/-- The 48 SCHED steps of a block, then the 66 that compress it. -/
theorem runsTo_blockState_succ {b : Nat} {bs : List Block} {wv : Words8 (Option Word)} (hb : b < blockCount len.toNat)
    (holds : HoldsMessageFrom s.input len b bs) :
    ∃ bs' wv', HoldsMessageFrom s.input len (b + 1) bs' ∧
      runsTo 114 (blockState s len b bs wv) (blockState s len (b + 1) bs' wv') := by
  have inArray : b < bs.length := hb.trans_eq holds.length.symm
  have hblk : (blockState s len b bs wv).blk = some b := congrArg some (if_pos hb)
  have hmop : (blockState s len b bs wv).mop = some 0x1030 := congrArg some (if_pos hb)
  have hcur : bs[b]? = some bs[b] := List.getElem?_eq_getElem inArray
  obtain ⟨bs', sched, length, words⟩ := scheduleOfABlock.2 (blockState s len b bs wv)
    (fun i => messageWord s.input len (16 * b + i)) b bs bs[b] busy turns hmop hblk rfl hcur
    fun i hi => holds.message_of_getElem? hcur hi
  have hcur' : bs'[b]? = some bs'[b] := List.getElem?_eq_getElem (inArray.trans_eq length.symm)
  have schedule_holds : ∀ i, i < 64 →
      blockGet bs'[b] i = some (schedule (fun i => messageWord s.input len (16 * b + i)) i) := fun i hi => by
    rw [← wordAt_of_getElem? hcur' i, words b i hi, if_pos rfl]
  obtain ⟨wv', compress⟩ := compressionOfABlock { blockState s len b bs wv with blocks := some bs', mop := some 0x0040 }
    (chainState s.input len b) (schedule fun i => messageWord s.input len (16 * b + i)) b (blockCount len.toNat) bs'
    bs'[b] busy turns rfl rfl hblk hnblk hb rfl hcur' schedule_holds
  refine ⟨bs', wv', ⟨length.trans holds.length, fun c i hc hcN hi => ?_⟩, runsTo_trans 48 66 _ _ _ sched compress⟩
  rw [words c i (by omega), if_neg (by omega), holds.message c i (by omega) hcN hi]

/-- The 114 steps of each of the first b blocks. -/
theorem runsTo_blockState {bs : List Block} {wv : Words8 (Option Word)} (holds : HoldsMessageFrom s.input len 0 bs)
    {b : Nat} (hb : b ≤ blockCount len.toNat) :
    ∃ bs' wv', HoldsMessageFrom s.input len b bs' ∧
      runsTo (114 * b) (blockState s len 0 bs wv) (blockState s len b bs' wv') := by
  induction b with
  | zero => exact ⟨bs, wv, holds, runsTo_zero _⟩
  | succ b ih =>
    obtain ⟨bs₁, wv₁, holds₁, run⟩ := ih (by omega)
    obtain ⟨bs₂, wv₂, holds₂, block⟩ := runsTo_blockState_succ turns busy hnblk hb holds₁
    exact ⟨bs₂, wv₂, holds₂, runsTo_trans (114 * b) 114 _ _ _ run block⟩

end

section
variable (hmop : s.mop = some (encode .padTerm)) (hlen : s.inlen = some len)
include hmop hlen

/-- An accepted invocation up to its last micro-operation. -/
theorem runsTo_finish (accepted : len.toNat ≤ s.cfg.maxInputBytes.toNat)
    (fits : blockCount len.toNat ≤ s.cfg.maxBlocks) :
    ∃ f, runsTo (6 + 114 * blockCount len.toNat) s f ∧ f.phase = .busy ∧ step f = .next (digestState s len) := by
  obtain ⟨bs, holds, padder⟩ := runsTo_loadIv_of_padTerm turns busy hmop hlen accepted fits
  obtain ⟨bs', wv', -, blocks⟩ := runsTo_blockState (s := paddedState s len bs) (wv := s.wv) turns busy rfl
    holds.holdsMessageFrom le_rfl
  have loadIv := runsTo_succ_of_mop (s := paddedState s len bs) .loadIv turns busy rfl rfl rfl
    (exec_loadIv_paddedState s len bs) blocks
  have run := runsTo_trans 5 (114 * blockCount len.toNat + 1) _ _ _ padder loadIv
  have finish := step_of_mop_eq_encode (s := blockState (paddedState s len bs) len (blockCount len.toNat) bs' wv')
    turns busy (mop_blockState_blockCount _ _ _ _) rfl rfl
  refine ⟨blockState (paddedState s len bs) len (blockCount len.toNat) bs' wv', ?_, busy, finish⟩
  rwa [show 6 + 114 * blockCount len.toNat = 5 + (114 * blockCount len.toNat + 1) by omega]

theorem runsTo_digestState (accepted : len.toNat ≤ s.cfg.maxInputBytes.toNat)
    (fits : blockCount len.toNat ≤ s.cfg.maxBlocks) :
    runsTo (6 + 114 * blockCount len.toNat + 1) s (digestState s len) := by
  obtain ⟨f, run, -, finish⟩ := runsTo_finish turns busy hmop hlen accepted fits
  exact runsTo_trans _ 1 _ _ _ run (runsTo_one _ _ finish)

theorem runsTo_lengthOverflow (overflow : s.cfg.maxInputBytes.toNat < len.toNat) :
    runsTo 1 s (faultEntry .lengthOverflow s) :=
  runsTo_succ_of_mop .padTerm turns busy hmop rfl rfl (exec_padTerm_of_overflow hlen overflow) (runsTo_zero _)

/-- What PAD_TERM and PAD_ALIGN have written, the fault entry of PAD_ALLOC gives up again. -/
theorem runsTo_resourceExhausted (accepted : len.toNat ≤ s.cfg.maxInputBytes.toNat)
    (exhausted : s.cfg.maxBlocks < blockCount len.toNat) : runsTo 3 s (faultEntry .resourceExhausted s) := by
  refine runsTo_succ_of_mop .padTerm turns busy hmop rfl rfl (exec_padTerm_of_accepted hlen accepted) ?_
  refine runsTo_succ_of_mop .padAlign turns busy rfl rfl rfl (exec_padAlign_of_plen rfl) ?_
  exact runsTo_succ_of_mop .padAlloc turns busy rfl rfl rfl (exec_padAlloc_of_exhausted hlen exhausted) (runsTo_zero _)

end
end

/-- The state in DONE or FAULT that an invocation started in s with L bytes ends in. -/
def invocationEnd (s : State) (len : U64) : State :=
  if s.cfg.maxInputBytes.toNat < len.toNat then faultEntry .lengthOverflow s
  else if s.cfg.maxBlocks < blockCount len.toNat then faultEntry .resourceExhausted s
  else digestState s len

theorem phase_invocationEnd (s : State) (len : U64) :
    (invocationEnd s len).phase = .done ∨ (invocationEnd s len).phase = .fault := by
  unfold invocationEnd
  split
  · exact .inr rfl
  · split
    · exact .inr rfl
    · exact .inl rfl

/-- Every invocation reaches its end, within 7 + 114 N(L) engine steps (R208, R215). -/
theorem runsTo_invocationEnd {s : State} {len : U64} (turns : s.agenda = []) (busy : s.phase = .busy)
    (hmop : s.mop = some (encode .padTerm)) (hlen : s.inlen = some len) :
    ∃ k ≤ 7 + 114 * blockCount len.toNat, runsTo k s (invocationEnd s len) := by
  unfold invocationEnd
  split
  · rename_i overflow
    exact ⟨1, by omega, runsTo_lengthOverflow turns busy hmop hlen overflow⟩
  · rename_i accepted
    split
    · rename_i exhausted
      exact ⟨3, by omega, runsTo_resourceExhausted turns busy hmop hlen (not_lt.mp accepted) exhausted⟩
    · rename_i fits
      exact ⟨_, by omega, runsTo_digestState turns busy hmop hlen (not_lt.mp accepted) (not_lt.mp fits)⟩

theorem agenda_invocationStart {s : State} {len : U64} (issued : hashIssued s len) :
    (invocationStart s len).agenda = [] :=
  congrArg List.tail issued.2

/-- Settles O50: the HASH step, then the invocation up to DONE. -/
theorem invocationComputesTheDigest : Obligations.InvocationComputesTheDigest := by
  intro s len issued accepted fits
  have run := runsTo_digestState (agenda_invocationStart issued) rfl rfl rfl accepted fits
  refine ⟨digestState (invocationStart s len) len, ?_, rfl, rfl, rfl, rfl, rfl, rfl, rfl, rfl, rfl, rfl, rfl, rfl, rfl⟩
  exact runsTo_trans 1 _ _ _ _ (runsTo_one _ _ (step_of_hashIssued issued)) run

end Sys2Proof.Machine
end

section
/-!
PROOFS. The digest depends on the input bytes below L alone (spec/44_host_and_sequencer.md R212, R213).
-/

namespace Sys2Proof.Machine

section
variable {input input' : Memory} {len : U64} (same : ∀ k, k < len.toNat → memRead input k = memRead input' k)
include same

theorem paddedByte_congr (k : Nat) : paddedByte input len.toNat k = paddedByte input' len.toNat k := by
  unfold paddedByte
  split
  · exact same k ‹_›
  · rfl

theorem messageWord_congr (j : Nat) : messageWord input len j = messageWord input' len j := by
  unfold messageWord paddedWord
  simp only [paddedByte_congr same]

theorem chainState_congr (b : Nat) : chainState input len b = chainState input' len b := by
  induction b with
  | zero => rfl
  | succ b ih => simp only [chainState, ih, messageWord_congr same]

/-- The digest reads the input bytes below L only. -/
theorem digest_congr : digest input len = digest input' len := chainState_congr same _

end

/-- Settles O54: both end with the digest of their input, which is a function of the bytes they agree on. -/
theorem digestDependsOnTheInputAlone : Obligations.DigestDependsOnTheInputAlone := by
  intro s s' len issued issued' accepted accepted' fits fits' same
  obtain ⟨t, run, done, hh, -⟩ := invocationComputesTheDigest s len issued accepted fits
  obtain ⟨t', run', done', hh', -⟩ := invocationComputesTheDigest s' len issued' accepted' fits'
  have steps : 1 + (6 + 114 * blockCount len.toNat + 1) = 8 + 114 * blockCount len.toNat := by omega
  rw [steps] at run run'
  refine ⟨t, t', run, run', done, done', ?_, by rw [hh]; rfl⟩
  rw [hh, hh', digest_congr same]

end Sys2Proof.Machine
end

section
/-!
PROOFS. A machine whose agenda is empty is at rest outside BUSY, so its run has one end; every invocation reaches it,
and is BUSY before (spec/44_host_and_sequencer.md R206, R208, R215, R220).
-/

namespace Sys2Proof.Machine

theorem runsTo_unique {n : Nat} {s t u : State} (ht : runsTo n s t) (hu : runsTo n s u) : t = u :=
  Host.Outcome.next.inj (ht.symm.trans hu)

theorem runsTo_succ_iff {n : Nat} {s u : State} : runsTo (n + 1) s u ↔ ∃ t, step s = .next t ∧ runsTo n t u := by
  constructor
  · intro h
    simp only [runsTo, Host.Core.run, show Host.Core.step Sys2Proof.core s = step s from rfl] at h
    cases hs : step s with
    | next t => rw [hs] at h; exact ⟨t, rfl, h⟩
    | fault f => rw [hs] at h; cases h
    | refused r => rw [hs] at h; cases h
  · rintro ⟨t, hs, rest⟩
    exact runsTo_succ n s t u hs rest

theorem runsTo_split {m n : Nat} {s u : State} (h : runsTo (m + n) s u) : ∃ t, runsTo m s t ∧ runsTo n t u := by
  induction m generalizing s with
  | zero => exact ⟨s, runsTo_zero s, by rwa [Nat.zero_add] at h⟩
  | succ m ih =>
    rw [Nat.succ_add] at h
    obtain ⟨s', hs, rest⟩ := runsTo_succ_iff.mp h
    obtain ⟨t, run, rest⟩ := ih rest
    exact ⟨t, runsTo_succ m s s' t hs run, rest⟩

theorem agenda_of_step {s t : State} (turns : s.agenda = []) (h : step s = .next t) : t.agenda = [] := by
  rw [step_agenda h, turns, List.tail_nil]

theorem agenda_of_runsTo {n : Nat} {s t : State} (turns : s.agenda = []) (h : runsTo n s t) : t.agenda = [] := by
  induction n generalizing s with
  | zero => exact runsTo_unique (runsTo_zero s) h ▸ turns
  | succ n ih =>
    obtain ⟨s', hs, rest⟩ := runsTo_succ_iff.mp h
    exact ih (agenda_of_step turns hs) rest

theorem runsTo_of_atRest {s : State} (turns : s.agenda = []) (rest : s.phase ≠ .busy) (n : Nat) : runsTo n s s := by
  have stays : step s = .next s := by
    rw [step_engine s (.inl turns), afterTurn_of_agenda_eq_nil turns, engineTurn_of_not_busy rest]
  induction n with
  | zero => exact runsTo_zero s
  | succ n ih => exact runsTo_succ n s s s stays ih

/-- A run that is still BUSY was BUSY all along. -/
theorem busy_of_runsTo {k n : Nat} {s f : State} (turns : s.agenda = []) (run : runsTo n s f) (busy : f.phase = .busy)
    (hk : k ≤ n) : ∃ x, runsTo k s x ∧ x.phase = .busy := by
  obtain ⟨d, rfl⟩ := Nat.exists_eq_add_of_le hk
  obtain ⟨x, first, rest⟩ := runsTo_split run
  refine ⟨x, first, by_contra fun idle => idle ?_⟩
  obtain rfl : x = f := runsTo_unique (runsTo_of_atRest (agenda_of_runsTo turns first) idle d) rest
  exact busy

/-- Two runs from one state that have both left BUSY have come to the same state. -/
theorem atRest_unique {m n : Nat} {s t u : State} (turns : s.agenda = []) (ht : runsTo m s t) (htRest : t.phase ≠ .busy)
    (hu : runsTo n s u) (huRest : u.phase ≠ .busy) : t = u := by
  have longT := runsTo_trans m n s t t ht (runsTo_of_atRest (agenda_of_runsTo turns ht) htRest n)
  have longU := runsTo_trans n m s u u hu (runsTo_of_atRest (agenda_of_runsTo turns hu) huRest m)
  rw [Nat.add_comm n m] at longU
  exact runsTo_unique longT longU

/-- Settles O51: the state before the last step is at FINISH, in BUSY, and so is every state before it. -/
theorem invocationIsBusyUntilItsLastStep : Obligations.InvocationIsBusyUntilItsLastStep := by
  intro s len k issued accepted fits hk
  obtain ⟨f, run, busy, -⟩ := runsTo_finish (agenda_invocationStart issued) rfl rfl rfl accepted fits
  obtain ⟨t, first, ht⟩ := busy_of_runsTo (agenda_invocationStart issued) run busy (Nat.le_of_lt_succ hk)
  exact ⟨t, runsTo_trans 1 k _ _ _ (runsTo_one _ _ (step_of_hashIssued issued)) first, ht⟩

theorem not_engineNext_of_host {s : State} {a : HostAction} {rest : List Turn} (h : s.agenda = .host a :: rest) :
    ¬ engineNext s := by
  rintro (he | ⟨rest', he⟩) <;> simp [h] at he

/-- An engine turn in BUSY keeps the REFUSED mark and does not lead to IDLE. -/
theorem step_of_engineNext_of_busy {s t : State} (turn : engineNext s) (busy : s.phase = .busy)
    (h : step s = .next t) : t.refused = s.refused ∧ (t.phase = .busy ∨ t.phase = .done ∨ t.phase = .fault) := by
  cases step_next h with
  | waits _ notBusy => exact absurd busy notBusy
  | faults _ _ _ _ eq => rw [eq]; exact ⟨rfl, .inr (.inr rfl)⟩
  | performs _ _ effect => exact ⟨effect.refused, effect.phase.imp (·.trans busy) .inl⟩
  | refuses _ _ host | accepts _ _ host | writes _ _ _ host => exact absurd turn (not_engineNext_of_host host)

/-- The run of R220 ends where the engine's steps first leave BUSY. -/
theorem runFrom_true_of_runsTo {n : Nat} {s t : State} (turns : s.agenda = []) (busy : s.phase = .busy)
    (hr : s.refused = false) (run : runsTo n s t) (ended : t.phase = .done ∨ t.phase = .fault) :
    ∃ k ≤ n, runsTo k s t ∧ runFrom true k s = .ended t := by
  induction n generalizing s with
  | zero =>
    obtain rfl : s = t := runsTo_unique (runsTo_zero s) run
    simp [busy] at ended
  | succ n ih =>
    obtain ⟨x, hs, rest⟩ := runsTo_succ_iff.mp run
    have turns' := agenda_of_step turns hs
    have hr' : x.refused = false := (step_of_engineNext_of_busy (.inl turns) busy hs).1.trans hr
    by_cases hx : x.phase = .busy
    · obtain ⟨k, hk, run', result⟩ := ih turns' hx hr' rest
      exact ⟨k + 1, by omega, runsTo_succ k s x t hs run', (runFrom_true_of_busy hs hr' hx).trans result⟩
    · obtain rfl : x = t := runsTo_unique (runsTo_of_atRest turns' hx n) rest
      exact ⟨1, by omega, runsTo_one s x hs, runFrom_true_of_end hs hr' ended⟩

/-- Settles O53: the invocation's end is the end of the run. -/
theorem everyInvocationEnds : Obligations.EveryInvocationEnds := by
  intro s len issued
  have hash := step_of_hashIssued issued
  have turns := agenda_invocationStart issued
  have ended := phase_invocationEnd (invocationStart s len) len
  obtain ⟨n, hn, run⟩ := runsTo_invocationEnd (len := len) turns rfl rfl rfl
  cases hr : s.refused with
  | true =>
    exact ⟨n, _, hn, runsTo_trans 1 n _ _ _ (runsTo_one _ _ hash) run, ended, runResult_of_refused hr⟩
  | false =>
    obtain ⟨k, hk, run', result⟩ := runFrom_true_of_runsTo turns rfl hr run ended
    have accepts : acceptsHash s = true := acceptsHash_iff.mpr ⟨⟨len, [], issued.2⟩, issued.1⟩
    refine ⟨k, _, hk.trans hn, runsTo_trans 1 k _ _ _ (runsTo_one _ _ hash) run', ended, ?_⟩
    rw [Nat.add_comm 1 k, runResult_succ_of_acceptsHash hr accepts hash, result]
    rfl

end Sys2Proof.Machine
end

section
/-!
PROOFS. The engine's turn does not see the host's side of the state, so two states in the same course of an invocation
stay in it, whatever turns the host takes (spec/44_host_and_sequencer.md R212, R215; spec/92_eei_decisions.md D29).
-/

namespace Sys2Proof.Machine

/-- s with the host's side of o: the REFUSED mark, the turns to come, the reply. -/
def withHostOf (s o : State) : State :=
  { s with refused := o.refused, agenda := o.agenda, reply := o.reply }

/-- The answer with its state's host side replaced by that of o. -/
def answerWithHostOf (o : State) : Result → Result
  | .next t => .next (withHostOf t o)
  | .fault f => .fault f
  | .refused r => .refused r

theorem withValue_withHostOf {α : Type} {v : Option α} {s o : State} {k k' : α → Result}
    (h : ∀ x, k' x = answerWithHostOf o (k x)) :
    withValue v (withHostOf s o) k' = answerWithHostOf o (withValue v s k) := by
  cases v with
  | some x => exact h x
  | none => rfl

theorem withCurrentBlock_withHostOf {s o : State} {k k' : Nat → List Block → Block → Result}
    (h : ∀ b bs cur, k' b bs cur = answerWithHostOf o (k b bs cur)) :
    withCurrentBlock (withHostOf s o) k' = answerWithHostOf o (withCurrentBlock s k) := by
  refine withValue_withHostOf fun b => withValue_withHostOf fun bs => ?_
  cases bs[b]? with
  | some cur => exact h b bs cur
  | none => rfl

theorem exec_microOp_withHostOf {i : Instr} (hi : isMicroOp i = true) (s o : State) :
    exec i (withHostOf s o) = answerWithHostOf o (exec i s) := by
  cases i with
  | padTerm | padAlloc =>
    refine withValue_withHostOf fun len => ?_
    rw [apply_ite (answerWithHostOf o)]
    rfl
  | padAlign | initWork => exact withValue_withHostOf fun _ => rfl
  | padPack =>
    refine withValue_withHostOf fun len => withValue_withHostOf fun p => ?_
    simp only [withHostOf]
    cases s.blocks with
    | none => rfl
    | some bs =>
      simp only
      cases packWords s.input len.toNat (p.toNat / 4) 0 bs <;> rfl
  | padLen =>
    refine withValue_withHostOf fun len => withValue_withHostOf fun n => ?_
    simp only [withHostOf]
    cases s.blocks with
    | none => rfl
    | some bs =>
      simp only
      cases writeLength (bitLength len) n bs <;> rfl
  | sched n =>
    simp only [exec, execSched, apply_ite (answerWithHostOf o)]
    refine if_congr Iff.rfl rfl ?_
    exact withCurrentBlock_withHostOf fun b bs cur => withValue_withHostOf fun x2 => withValue_withHostOf fun x7 =>
      withValue_withHostOf fun x15 => withValue_withHostOf fun x16 => rfl
  | round n =>
    exact withCurrentBlock_withHostOf fun b bs cur => withValue_withHostOf fun w => withValue_withHostOf fun v => rfl
  | addState =>
    refine withValue_withHostOf fun x => withValue_withHostOf fun y => withValue_withHostOf fun b =>
      withValue_withHostOf fun n => ?_
    rw [apply_ite (answerWithHostOf o), apply_ite (answerWithHostOf o)]
    rfl
  | loadIv | finish => rfl
  | hash | readStatus | readDigest | reset => cases hi

theorem engineTurn_withHostOf (s o : State) : engineTurn (withHostOf s o) = answerWithHostOf o (engineTurn s) := by
  unfold engineTurn
  rw [apply_ite (answerWithHostOf o)]
  refine if_congr Iff.rfl (withValue_withHostOf fun w => ?_) rfl
  cases hd : decodeMop w with
  | ok i => exact exec_microOp_withHostOf (isMicroOp_of_decodeMop hd) s o
  | error e => rfl

/-- Two states in the same course of an invocation: the engine, the input and the parameters are the same. -/
structure SameCourse (s t : State) : Prop where
  engine : sameEngine s t
  input : t.input = s.input
  cfg : t.cfg = s.cfg

theorem SameCourse.phase {s t : State} (h : SameCourse s t) : t.phase = s.phase := h.engine.1

theorem SameCourse.symm {s t : State} (h : SameCourse s t) : SameCourse t s := by
  obtain ⟨⟨h1, h2, h3, h4, h5, h6, h7, h8, h9, h10⟩, hinput, hcfg⟩ := h
  exact ⟨⟨h1.symm, h2.symm, h3.symm, h4.symm, h5.symm, h6.symm, h7.symm, h8.symm, h9.symm, h10.symm⟩,
    hinput.symm, hcfg.symm⟩

theorem sameCourse_withHostOf (s o : State) : SameCourse s (withHostOf s o) :=
  ⟨sameEngine_refl s, rfl, rfl⟩

theorem SameCourse.eq_withHostOf {s t : State} (h : SameCourse s t) : t = withHostOf s t := by
  obtain ⟨⟩ := s
  obtain ⟨⟩ := t
  obtain ⟨⟨⟨⟩, ⟨⟩, ⟨⟩, ⟨⟩, ⟨⟩, ⟨⟩, ⟨⟩, ⟨⟩, ⟨⟩, ⟨⟩⟩, ⟨⟩, ⟨⟩⟩ := h
  rfl

theorem SameCourse.trans {s t u : State} (h : SameCourse s t) (h' : SameCourse t u) : SameCourse s u := by
  rw [h'.eq_withHostOf, h.eq_withHostOf]
  exact sameCourse_withHostOf s u

/-- An engine turn keeps two states in the same course. -/
theorem SameCourse.step_engine {s s' t : State} (same : SameCourse s t) (hs : engineNext s) (ht : engineNext t)
    (h : step s = .next s') : ∃ t', step t = .next t' ∧ SameCourse s' t' := by
  have turn : afterTurn t = withHostOf (afterTurn s) (afterTurn t) :=
    SameCourse.eq_withHostOf ⟨same.engine, same.input, same.cfg⟩
  refine ⟨withHostOf s' (afterTurn t), ?_, sameCourse_withHostOf s' _⟩
  rw [Machine.step_engine s hs] at h
  rw [Machine.step_engine t ht, turn, engineTurn_withHostOf, h, ← turn]
  rfl

/-- A host turn in BUSY other than RESET keeps two states in the same course, though the other takes no turn. -/
theorem SameCourse.step_host {s t : State} {a : HostAction} {rest : List Turn} (same : SameCourse s t)
    (busy : s.phase = .busy) (turn : t.agenda = .host a :: rest) (notReset : ∀ operand, a ≠ .command 0x000F operand) :
    ∃ t', step t = .next t' ∧ SameCourse s t' := by
  obtain ⟨t', ht, engine, input, -⟩ :=
    hostCannotDisturbAnInvocation t a rest (same.phase.trans busy) turn notReset
  exact ⟨t', ht, same.trans ⟨engine, input, step_cfg ht⟩⟩

/-- Where the engine's turns are taken in BUSY and the last turn is the engine's, or is taken in BUSY too, the first
one is taken in BUSY. -/
theorem busy_of_turns {a : List Turn} {s u : State} (run : runsTo (a.count .engine) s u)
    (busy : ∀ k, k < a.count .engine → ∃ x, runsTo k s x ∧ x.phase = .busy)
    (last : u.phase = .busy ∨ a.getLast? = some .engine) : s.phase = .busy := by
  rcases Nat.eq_zero_or_pos (a.count .engine) with noEngine | engine
  · rw [noEngine] at run
    obtain rfl : s = u := runsTo_unique (runsTo_zero s) run
    rcases last with hu | hl
    · exact hu
    · exact absurd (List.mem_of_getLast? hl) (List.count_eq_zero.mp noEngine)
  · obtain ⟨x, hx, hp⟩ := busy 0 engine
    obtain rfl : s = x := runsTo_unique (runsTo_zero s) hx
    exact hp

/-- The interleaving of turns, for O56: at the end of the list t has come to the state that the engine's turns alone
lead s to. -/
theorem SameCourse.runsTo_turns {a : List Turn} {s t u : State} (same : SameCourse s t) (turns : s.agenda = [])
    (agenda : t.agenda = a) (notReset : ∀ operand, Turn.host (.command 0x000F operand) ∉ a)
    (run : runsTo (a.count .engine) s u) (busy : ∀ k, k < a.count .engine → ∃ x, runsTo k s x ∧ x.phase = .busy)
    (last : a = [] ∨ u.phase = .busy ∨ a.getLast? = some .engine) :
    ∃ v, runsTo a.length t v ∧ SameCourse u v ∧ v.agenda = [] := by
  induction a generalizing s t with
  | nil =>
    obtain rfl : s = u := runsTo_unique (runsTo_zero s) run
    exact ⟨t, runsTo_zero t, same, agenda⟩
  | cons x rest ih =>
    have notReset' : ∀ operand, Turn.host (.command 0x000F operand) ∉ rest :=
      fun operand h => notReset operand (List.mem_cons_of_mem x h)
    have last' : rest = [] ∨ u.phase = .busy ∨ rest.getLast? = some .engine := by
      cases rest with
      | nil => exact .inl rfl
      | cons y ys => simpa using last
    cases x with
    | engine =>
      rw [List.count_cons_self] at run busy
      obtain ⟨s', hs, run'⟩ := runsTo_succ_iff.mp run
      obtain ⟨t', ht, same'⟩ := same.step_engine (.inl turns) (.inr ⟨rest, agenda⟩) hs
      have busy' : ∀ k, k < rest.count .engine → ∃ x, runsTo k s' x ∧ x.phase = .busy := by
        intro k hk
        obtain ⟨x, hx, hp⟩ := busy (k + 1) (by omega)
        obtain ⟨s₁, hs₁, hx⟩ := runsTo_succ_iff.mp hx
        obtain rfl : s' = s₁ := Host.Outcome.next.inj (hs.symm.trans hs₁)
        exact ⟨x, hx, hp⟩
      have agenda' : t'.agenda = rest := by rw [step_agenda ht, agenda, List.tail_cons]
      obtain ⟨v, hv, sameEnd, noTurns⟩ := ih same' (agenda_of_step turns hs) agenda' notReset' run' busy' last'
      exact ⟨v, runsTo_succ rest.length t t' v ht hv, sameEnd, noTurns⟩
    | host a =>
      have hbusy : s.phase = .busy := busy_of_turns run busy (last.resolve_left nofun)
      rw [List.count_cons_of_ne (by simp)] at run busy
      obtain ⟨t', ht, same'⟩ := same.step_host hbusy agenda fun operand h => notReset operand (h ▸ List.mem_cons_self)
      have agenda' : t'.agenda = rest := by rw [step_agenda ht, agenda, List.tail_cons]
      obtain ⟨v, hv, sameEnd, noTurns⟩ := ih same' turns agenda' notReset' run busy last'
      exact ⟨v, runsTo_succ rest.length t t' v ht hv, sameEnd, noTurns⟩

/-- Settles O56, by induction on the turns. -/
theorem hostTurnsDoNotChangeTheInvocation : Obligations.HostTurnsDoNotChangeTheInvocation := by
  intro a s t u turns agenda engine input cfg notReset run busy last
  obtain ⟨v, hv, same, noTurns⟩ :=
    SameCourse.runsTo_turns ⟨engine, input, cfg⟩ turns agenda notReset run busy (.inr last)
  exact ⟨v, hv, same.engine, same.input, same.cfg, noTurns⟩

end Sys2Proof.Machine
end

section
/-!
PROOFS. What a host can observe at the end of a run, whatever turns follow its HASH (spec/44_host_and_sequencer.md R220,
R221): the run follows the course of the invocation that the engine takes alone.
-/

namespace Sys2Proof.Machine

/-- A run that ends, ends where the invocation's own course c leaves BUSY. -/
theorem SameCourse.end_of_runFrom {n : Nat} {c t u : State} (same : SameCourse c t) (turns : c.agenda = [])
    (busy : c.phase = .busy) (h : runFrom true n t = .ended u) :
    ∃ k v, runsTo k c v ∧ v.phase ≠ .busy ∧ SameCourse v u := by
  induction n generalizing c t with
  | zero => cases h
  | succ n ih =>
    obtain ⟨_, t', ⟨⟩, ht, -, ⟨-, course⟩ | ⟨⟨⟩, -⟩⟩ := runFrom_ended h
    rcases step_cases t with ⟨turn, -⟩ | ⟨a, rest, turn, -⟩
    · obtain ⟨c', hc, back⟩ := same.symm.step_engine turn (.inl turns) ht
      have turns' := agenda_of_step turns hc
      rcases course with ⟨hp, result⟩ | ⟨hp, rfl⟩
      · obtain ⟨k, v, run, left, sameEnd⟩ := ih back.symm turns' (back.phase.trans hp) result
        exact ⟨k + 1, v, runsTo_succ k c c' v hc run, left, sameEnd⟩
      · refine ⟨1, c', runsTo_one c c' hc, ?_, back.symm⟩
        rw [back.phase]
        rcases hp with hp | hp <;> simp [hp]
    · have notReset : ∀ operand, a ≠ .command 0x000F operand := by
        rintro operand rfl
        cases h.symm.trans (runFrom_true_of_reset turn)
      obtain ⟨t₁, ht₁, same'⟩ := same.step_host busy turn notReset
      obtain rfl : t' = t₁ := Host.Outcome.next.inj (ht.symm.trans ht₁)
      have busy' := same'.phase.trans busy
      rcases course with ⟨-, result⟩ | ⟨hp, -⟩
      · exact ih same' turns busy result
      · simp [busy'] at hp

/-- A turn of a host that only polls STATUS, or the engine's. -/
def polls (x : Turn) : Prop := x = .engine ∨ ∃ operand, x = .host (.command 0x0002 operand)

/-- A poll keeps the course, and it is never refused. -/
theorem SameCourse.step_poll {c t : State} {operand : U64} {rest : List Turn} (same : SameCourse c t)
    (turn : t.agenda = .host (.command 0x0002 operand) :: rest) :
    ∃ t', step t = .next t' ∧ SameCourse c t' ∧ t'.refused = t.refused := by
  have hd : decodeHostCommand 0x0002 operand = .ok .readStatus := rfl
  refine ⟨{ afterTurn t with reply := .word (statusWord t) }, ?_, same.trans ⟨sameEngine_refl t, rfl, rfl⟩, rfl⟩
  rw [Machine.step_host t _ rest turn, hostTurn_command_of_ok hd]
  rfl

theorem exists_succ_of_runsTo {k : Nat} {c v : State} (busy : c.phase = .busy) (run : runsTo k c v)
    (left : v.phase ≠ .busy) : ∃ m, k = m + 1 := by
  refine Nat.exists_eq_succ_of_ne_zero ?_
  rintro rfl
  obtain rfl : c = v := runsTo_unique (runsTo_zero c) run
  exact left busy

/-- A run with the engine's turns and polls only has ended by the time its list is used up and the course c has left
BUSY. -/
theorem SameCourse.runFrom_ends {n k : Nat} {c t v : State} (same : SameCourse c t) (turns : c.agenda = [])
    (busy : c.phase = .busy) (hr : t.refused = false) (agenda : ∀ x ∈ t.agenda, polls x) (run : runsTo k c v)
    (left : v.phase ≠ .busy) (hn : t.agenda.length + k ≤ n) : ∃ u, runFrom true n t = .ended u := by
  induction n generalizing c t k with
  | zero =>
    obtain ⟨m, rfl⟩ := exists_succ_of_runsTo busy run left
    omega
  | succ n ih =>
    have agenda' : ∀ x ∈ t.agenda.tail, polls x := fun x hx => agenda x (List.mem_of_mem_tail hx)
    rcases step_cases t with ⟨turn, -⟩ | ⟨a, rest, turn, -⟩
    · obtain ⟨m, rfl⟩ := exists_succ_of_runsTo busy run left
      obtain ⟨c', hc, run'⟩ := runsTo_succ_iff.mp run
      obtain ⟨t', ht, same'⟩ := same.step_engine (.inl turns) turn hc
      obtain ⟨mark, phase⟩ := step_of_engineNext_of_busy turn (same.phase.trans busy) ht
      have hr' : t'.refused = false := mark.trans hr
      rcases phase with hp | hp
      · have shorter : t'.agenda.length + m ≤ n := by
          rw [step_agenda ht, List.length_tail]
          omega
        rw [runFrom_true_of_busy ht hr' hp]
        exact ih same' (agenda_of_step turns hc) (same'.phase.symm.trans hp) hr' (step_agenda ht ▸ agenda') run'
          shorter
      · exact ⟨t', runFrom_true_of_end ht hr' hp⟩
    · obtain ⟨⟨⟩⟩ | ⟨operand, ⟨⟩⟩ := agenda (.host a) (turn ▸ List.mem_cons_self)
      obtain ⟨t', ht, same', hr'⟩ := same.step_poll turn
      have shorter : t'.agenda.length + k ≤ n := by
        rw [turn, List.length_cons] at hn
        rw [step_agenda ht, turn, List.tail_cons]
        omega
      rw [runFrom_true_of_busy ht (hr'.trans hr) (same'.phase.trans busy)]
      exact ih same' turns busy (hr'.trans hr) (step_agenda ht ▸ agenda') run shorter

theorem readsDigest_of_done {t : State} {d : Words8 Word} (done : t.phase = .done) (hh : t.h = someWords8 d) :
    readsDigest t d := by
  intro j
  refine exec_readDigest_of_word done ?_
  rw [hh, words8Get_someWords8]

/-- What the host sees at the end of an invocation (R211, R241, R242). -/
theorem observation_of_invocationEnd {c u : State} {len : U64} (same : SameCourse (invocationEnd c len) u) :
    (u.phase = .done ∧ len.toNat ≤ c.cfg.maxInputBytes.toNat ∧ blockCount len.toNat ≤ c.cfg.maxBlocks ∧
        readsDigest u (digest c.input len)) ∨
      (u.phase = .fault ∧ u.faultCode = .lengthOverflow ∧ c.cfg.maxInputBytes.toNat < len.toNat) ∨
      (u.phase = .fault ∧ u.faultCode = .resourceExhausted ∧ len.toNat ≤ c.cfg.maxInputBytes.toNat ∧
        c.cfg.maxBlocks < blockCount len.toNat) := by
  obtain ⟨⟨phase, faultCode, -, -, -, -, hh, -⟩, -, -⟩ := same
  unfold invocationEnd at phase faultCode hh
  by_cases overflow : c.cfg.maxInputBytes.toNat < len.toNat
  · rw [if_pos overflow] at phase faultCode
    exact .inr (.inl ⟨phase, faultCode, overflow⟩)
  · rw [if_neg overflow] at phase faultCode hh
    by_cases exhausted : c.cfg.maxBlocks < blockCount len.toNat
    · rw [if_pos exhausted] at phase faultCode
      exact .inr (.inr ⟨phase, faultCode, not_lt.mp overflow, exhausted⟩)
    · rw [if_neg exhausted] at phase hh
      exact .inl ⟨phase, not_lt.mp overflow, not_lt.mp exhausted, readsDigest_of_done phase hh⟩

/-- The course of an invocation that HASH L starts in s: the engine has every turn. -/
def courseStart (s : State) (len : U64) : State := { invocationStart s len with agenda := [] }

/-- Settles O59: the run follows the invocation's own course, which has one end. -/
theorem observationOfARun : Obligations.ObservationOfARun := by
  intro s len rest accepts hr turn
  have hash := step_of_hash accepts turn
  have accepted : acceptsHash s = true := acceptsHash_iff.mpr ⟨⟨len, rest, turn⟩, accepts⟩
  have result (n : Nat) : runResult (n + 1) s = runFrom true n (invocationStart s len) :=
    runResult_succ_of_acceptsHash hr accepted hash
  have same : SameCourse (courseStart s len) (invocationStart s len) := ⟨sameEngine_refl _, rfl, rfl⟩
  obtain ⟨k, hk, run⟩ := runsTo_invocationEnd (s := courseStart s len) (len := len) rfl rfl rfl rfl
  have left : (invocationEnd (courseStart s len) len).phase ≠ .busy := by
    rcases phase_invocationEnd (courseStart s len) len with hp | hp <;> simp [hp]
  refine ⟨fun n t h => ?_, fun agenda => ?_⟩
  · cases n with
    | zero => cases (runResult_ended_iff.mp h).2
    | succ n =>
      obtain ⟨m, v, toEnd, vLeft, sameEnd⟩ := same.end_of_runFrom rfl rfl ((result n).symm.trans h)
      obtain rfl : v = invocationEnd (courseStart s len) len := atRest_unique rfl toEnd vLeft run left
      exact observation_of_invocationEnd (c := courseStart s len) sameEnd
  · have turns : (invocationStart s len).agenda = rest := congrArg List.tail turn
    rw [show 1 + rest.length + (7 + 114 * blockCount len.toNat) = rest.length + (7 + 114 * blockCount len.toNat) + 1 by
      omega, result]
    exact same.runFrom_ends rfl rfl hr (turns ▸ agenda) run left (by rw [turns]; omega)

end Sys2Proof.Machine
end

section
/-!
PROOFS. Faults are precise and stay until a RESET, and oversize inputs end in one (spec/60_exceptions.md R240 to R242,
R245, R246).
-/

namespace Sys2Proof.Machine

/-- A micro-operation that is performed keeps the phase or ends in DONE, so one that enters FAULT has raised. -/
theorem faulted_of_exec_microOp {i : Instr} {s t : State} (hi : isMicroOp i = true) (before : s.phase ≠ .fault)
    (h : exec i s = .next t) (after : t.phase = .fault) : faulted s t := by
  rcases exec_microOp_next hi h with hf | effect
  · exact hf
  · rcases effect.phase with same | done
    · exact absurd (same.symm.trans after) before
    · cases done.symm.trans after

/-- Settles O21: the only way into FAULT is the fault entry, and in FAULT the engine waits. -/
theorem faultsArePrecise : Obligations.FaultsArePrecise := by
  refine ⟨fun i s t hi before h after => ?_, fun s hf turn => ?_⟩
  · obtain ⟨c, code, rfl⟩ := faulted_of_exec_microOp hi before h after
    exact ⟨code, rfl⟩
  · exact engineWaitsOutsideBusy s turn (by simp [hf])

/-- In FAULT a HASH is refused, so of the host's turns only RESET's word touches the engine. -/
theorem hostTurn_of_fault {a : HostAction} {s t : State} (hf : s.phase = .fault) (h : hostTurn a s = .next t) :
    sameEngine s t ∨ ∃ operand, a = .command 0x000F operand ∧ t.phase = .idle := by
  rcases hostTurn_sameEngine h with same | ⟨w, operand, rfl, rfl | rfl⟩
  · exact .inl same
  · rw [hostTurn_command_of_ok (decodeHostCommand_hash operand), exec_hash_of_refused (.inr hf)] at h
    cases h
    exact .inl (sameEngine_refl s)
  · have hd : decodeHostCommand 0x000F operand = .ok .reset := rfl
    rw [hostTurn_command_of_ok hd] at h
    cases h
    exact .inr ⟨operand, rfl, rfl⟩

/-- Settles O23: in FAULT the engine waits, and the host's turns but RESET leave the engine's own part alone. -/
theorem faultStaysUntilReset : Obligations.FaultStaysUntilReset := by
  intro s t hf h
  rcases step_cases s with ⟨turn, -⟩ | ⟨a, rest, turn, hs⟩
  · cases (engineWaitsOutsideBusy s turn (by simp [hf])).symm.trans h
    exact .inl ⟨hf, rfl⟩
  · rcases hostTurn_of_fault (s := afterTurn s) hf (hs.symm.trans h) with same | ⟨operand, rfl, idle⟩
    · obtain ⟨phase, faultCode, -⟩ := same
      exact .inl ⟨phase.trans hf, faultCode⟩
    · exact .inr ⟨operand, rest, turn, idle⟩

theorem released_faultEntry (c : FaultCode) (s : State) : released (faultEntry c s) :=
  ⟨rfl, rfl, rfl, rfl, rfl, rfl⟩

/-- Settles O52: the HASH step, then PAD_TERM faults, or PAD_ALLOC after PAD_TERM and PAD_ALIGN. -/
theorem oversizeInputsFault : Obligations.OversizeInputsFault := by
  refine ⟨fun s len issued overflow => ?_, fun s len issued accepted exhausted => ?_⟩
  · have run := runsTo_lengthOverflow (agenda_invocationStart issued) rfl rfl rfl overflow
    exact ⟨_, runsTo_succ 1 _ _ _ (step_of_hashIssued issued) run, rfl, rfl, rfl, released_faultEntry _ _⟩
  · have run := runsTo_resourceExhausted (agenda_invocationStart issued) rfl rfl rfl accepted exhausted
    exact ⟨_, runsTo_succ 3 _ _ _ (step_of_hashIssued issued) run, rfl, rfl, rfl, released_faultEntry _ _⟩

end Sys2Proof.Machine
end

section
/-!
PROOFS. The terms of the invariant: arrays of eight that hold values, blocks whose words below an index hold values,
and which writes keep them (spec/10_state.md R39, spec/20_memory.md R52).
-/

namespace Sys2Proof.Machine

theorem allHold_someWords8 (v : Words8 Word) : allHold (someWords8 v) := rfl

theorem exists_words_of_allHold {x : Words8 (Option Word)} (h : allHold x) : ∃ v, x = someWords8 v := by
  obtain ⟨v, hv⟩ := Option.isSome_iff_exists.mp h
  exact ⟨v, (readWords8_eq_some x v).mp hv⟩

theorem holdsBelow_freshBlock : holdsBelow 16 freshBlock := by
  intro i hi
  rw [blockGet_freshBlock, if_pos hi]
  rfl

theorem holdsBelow.get {n : Nat} {cur : Block} (h : holdsBelow n cur) {i : Nat} (hi : i < n) :
    ∃ w, blockGet cur i = some w :=
  Option.isSome_iff_exists.mp (h i hi)

/-- Writing the first word that may hold no value extends the part that holds values by one. -/
theorem holdsBelow.succ {n : Nat} {cur : Block} (h : holdsBelow n cur) (hn : n < 64) (w : Word) :
    holdsBelow (n + 1) (blockSet cur n w) := by
  intro j hj
  rw [blockGet_blockSet]
  split
  · rfl
  · exact h j (by omega)

theorem forall_holdsBelow_iff {n : Nat} {bs : List Block} :
    (∀ cur ∈ bs, holdsBelow n cur) ↔ ∀ b i, b < bs.length → i < n → (wordAt bs b i).isSome := by
  simp only [List.forall_mem_iff_getElem, holdsBelow]
  refine forall_congr' fun b => ⟨fun h i hb => ?_, fun h hb i => ?_⟩
  · rw [wordAt_of_getElem? (List.getElem?_eq_getElem hb)]
    exact h hb i
  · rw [← wordAt_of_getElem? (List.getElem?_eq_getElem hb)]
    exact h i hb

/-- The array that PAD_ALLOC made stays allocated when its blocks are replaced by as many whose message words hold
values wherever they did. -/
theorem arrayAllocated.of_blocks {s t : State} {len : U64} {bs bs' : List Block} (h : arrayAllocated s len)
    (hbs : s.blocks = some bs) (hbs' : t.blocks = some bs') (nblk : t.nblk = s.nblk) (length : bs'.length = bs.length)
    (keeps : ∀ b i, i < 16 → (wordAt bs b i).isSome → (wordAt bs' b i).isSome) : arrayAllocated t len := by
  obtain ⟨hnblk, bs₀, hbs₀, count, message⟩ := h
  obtain rfl : bs₀ = bs := Option.some.inj (hbs₀.symm.trans hbs)
  refine ⟨nblk.trans hnblk, bs', hbs', length.trans count, forall_holdsBelow_iff.mpr fun b i hb hi => ?_⟩
  exact keeps b i hi (forall_holdsBelow_iff.mp message b i (hb.trans_eq length) hi)

/-- A block of the array is ready for SCHED 16 (spec/42_schedule.md R161). -/
theorem arrayAllocated.blockReady_of_lt {s : State} {len : U64} {b : Nat} (h : arrayAllocated s len)
    (hblk : s.blk = some b) (hb : b < blockCount len.toNat) : blockReady s 16 := by
  obtain ⟨-, bs, hbs, count, message⟩ := h
  have inArray : b < bs.length := by omega
  exact ⟨b, bs, bs[b], hblk, hbs, List.getElem?_eq_getElem inArray, message _ (List.getElem_mem inArray)⟩

theorem arrayAllocated.exists_blocks {s : State} {len : U64} (h : arrayAllocated s len) :
    ∃ bs, s.blocks = some bs ∧ bs.length = blockCount len.toNat := by
  obtain ⟨-, bs, hbs, count, -⟩ := h
  exact ⟨bs, hbs, count⟩

/-- Block BLK is below NBLK (spec/44_host_and_sequencer.md R207). -/
theorem arrayAllocated.exists_blk_lt {s : State} {len : U64} {n : Nat} (h : arrayAllocated s len)
    (ready : blockReady s n) : ∃ b, s.blk = some b ∧ b < blockCount len.toNat := by
  obtain ⟨bs, hbs, count⟩ := h.exists_blocks
  obtain ⟨b, bs', cur, hblk, hbs', hcur, -⟩ := ready
  obtain rfl : bs = bs' := Option.some.inj (hbs.symm.trans hbs')
  obtain ⟨inArray, -⟩ := List.getElem?_eq_some_iff.mp hcur
  exact ⟨b, hblk, by omega⟩

theorem lengthAccepted.lt {s : State} {len : U64} (h : lengthAccepted s len) : len.toNat < 2 ^ 61 :=
  lt_of_le_of_lt h.2 s.cfg.maxInputBytes.isLt

theorem codeHolds_iff_of_ne_fault {s : State} (h : s.phase ≠ .fault) : codeHolds s ↔ s.faultCode = .none := by
  rw [codeHolds, if_neg h]

theorem codeHolds_iff_of_fault {s : State} (h : s.phase = .fault) :
    codeHolds s ↔ s.faultCode = .lengthOverflow ∨ s.faultCode = .resourceExhausted := by
  rw [codeHolds, if_pos h]

theorem phaseHolds_iff_of_idle {s : State} (h : s.phase = .idle) :
    phaseHolds s ↔ s.inlen = none ∧ s.h = noWords8 ∧ released s := by
  rw [phaseHolds, h]

theorem phaseHolds_iff_of_busy {s : State} (h : s.phase = .busy) :
    phaseHolds s ↔ ∃ len i, s.mop = some (encode i) ∧ s.blk.isSome ∧ readyFor s len i := by
  rw [phaseHolds, h]

theorem phaseHolds_iff_of_done {s : State} (h : s.phase = .done) :
    phaseHolds s ↔ s.inlen.isSome ∧ allHold s.h ∧ released s := by
  rw [phaseHolds, h]

theorem phaseHolds_iff_of_fault {s : State} (h : s.phase = .fault) :
    phaseHolds s ↔ s.inlen.isSome ∧ s.h = noWords8 ∧ released s := by
  rw [phaseHolds, h]

/-- Every micro-operation of an invocation starts with the invocation's length in INLEN (R23). -/
theorem inlen_of_readyFor {s : State} {len : U64} {i : Instr} (h : readyFor s len i) : s.inlen = some len := by
  cases i with
  | padTerm => exact h
  | padAlign | padAlloc | padPack | padLen | loadIv | sched | initWork | round | addState | finish =>
    obtain ⟨⟨hlen, -⟩, -⟩ := h
    exact hlen
  | hash | readStatus | readDigest | reset => cases h

end Sys2Proof.Machine
end

section
/-!
PROOFS. The engine's part of the invariant: it reads the engine's own registers and the parameters, and holds in IDLE
after a reset, and in FAULT after the two faults of an invocation (spec/70_reset_and_hazards.md R270, R278).
-/

namespace Sys2Proof.Machine

/-- The engine's part of the invariant (`State.Inv`). -/
structure EngineInv (s : State) : Prop where
  code : codeHolds s
  phase : phaseHolds s

/-- What a micro-operation starts from are engine registers and the parameters. -/
theorem readyFor.of_sameEngine {s t : State} {len : U64} {i : Instr} (h : readyFor s len i) (same : sameEngine s t)
    (cfg : t.cfg = s.cfg) : readyFor t len i := by
  obtain ⟨⟩ := s
  obtain ⟨⟩ := t
  obtain ⟨rfl, rfl, rfl, rfl, rfl, rfl, rfl, rfl, rfl, rfl⟩ := same
  obtain rfl := cfg
  cases i <;> exact h

theorem phaseHolds.of_sameEngine {s t : State} (h : phaseHolds s) (same : sameEngine s t) (cfg : t.cfg = s.cfg) :
    phaseHolds t := by
  have ⟨phase, _, inlen, plen, nblk, blocks, hh, wv, mop, blk⟩ := same
  cases hp : s.phase with
  | busy =>
    obtain ⟨len, i, hmop, hblk, ready⟩ := (phaseHolds_iff_of_busy hp).mp h
    exact (phaseHolds_iff_of_busy (phase.trans hp)).mpr
      ⟨len, i, mop.trans hmop, blk ▸ hblk, ready.of_sameEngine same cfg⟩
  | idle | done | fault =>
    rw [phaseHolds, hp] at h
    rwa [phaseHolds, phase, hp, released, inlen, plen, nblk, blocks, hh, wv, mop, blk]

/-- The engine's part of the invariant does not see the input space, the mark, the agenda or the reply. -/
theorem EngineInv.of_sameEngine {s t : State} (h : EngineInv s) (same : sameEngine s t) (cfg : t.cfg = s.cfg) :
    EngineInv t := by
  refine ⟨?_, h.phase.of_sameEngine same cfg⟩
  obtain ⟨phase, faultCode, -⟩ := same
  rw [codeHolds, phase, faultCode]
  exact h.code

theorem engineInv_resetEngine (s : State) : EngineInv (resetEngine s) :=
  ⟨(codeHolds_iff_of_ne_fault (by simp)).mpr rfl,
    (phaseHolds_iff_of_idle rfl).mpr ⟨rfl, rfl, rfl, rfl, rfl, rfl, rfl, rfl⟩⟩

theorem engineInv_faultEntry {c : FaultCode} {s : State} (code : c = .lengthOverflow ∨ c = .resourceExhausted)
    (hlen : s.inlen.isSome) : EngineInv (faultEntry c s) :=
  ⟨(codeHolds_iff_of_fault rfl).mpr code, (phaseHolds_iff_of_fault rfl).mpr ⟨hlen, rfl, released_faultEntry c s⟩⟩

theorem inv_resetWith {cfg : Config} (h : cfg.Ok) : (State.resetWith cfg).Inv where
  cfgOk := h
  memOk := rfl
  codeOk := (engineInv_resetEngine (State.resetWith cfg)).code
  phaseOk := (engineInv_resetEngine (State.resetWith cfg)).phase

/-- The open parameters are admissible (spec/00_scope.md R7; log 12). -/
theorem chip_ok : Config.chip.Ok := ⟨Nat.le_add_left _ _, Nat.le_add_left _ _⟩

/-- Settles O47: power-on is the reset of the engine with nothing listed in IN. -/
theorem powerOnMeetsTheInvariant : Obligations.PowerOnMeetsTheInvariant :=
  ⟨fun _ => inv_resetWith, inv_resetWith chip_ok⟩

end Sys2Proof.Machine
end

section
/-!
PROOFS. Every micro-operation of an invocation leaves what its successor starts from, or raises one of the two faults
of oversize inputs (spec/70_reset_and_hazards.md R278, spec/42_schedule.md R161).
-/

namespace Sys2Proof.Machine

/-- A BUSY engine in an invocation on `len` bytes, right before micro-operation i. -/
structure ReadyAt (len : U64) (i : Instr) (s : State) : Prop where
  busy : s.phase = .busy
  code : s.faultCode = .none
  mop : s.mop = some (encode i)
  blk : s.blk.isSome
  ready : readyFor s len i

theorem ReadyAt.engineInv {len : U64} {i : Instr} {s : State} (h : ReadyAt len i s) : EngineInv s :=
  ⟨(codeHolds_iff_of_ne_fault (by simp [h.busy])).mpr h.code,
    (phaseHolds_iff_of_busy h.busy).mpr ⟨len, i, h.mop, h.blk, h.ready⟩⟩

theorem EngineInv.readyAt {s : State} (h : EngineInv s) (busy : s.phase = .busy) : ∃ len i, ReadyAt len i s := by
  obtain ⟨len, i, mop, blk, ready⟩ := (phaseHolds_iff_of_busy busy).mp h.phase
  exact ⟨len, i, busy, (codeHolds_iff_of_ne_fault (by simp [busy])).mp h.code, mop, blk, ready⟩

/-- What a micro-operation of an invocation answers. -/
inductive InvocationAnswer (i : Instr) (s t : State) : Prop where
  /-- It has completed, and its successor, or DONE, finds what it needs. -/
  | completes (ok : t.phase ≠ .fault) (inv : EngineInv t)
  /-- PAD_TERM raises LENGTH_OVERFLOW (spec/60_exceptions.md R241). -/
  | overflows (op : i = .padTerm) (eq : t = faultEntry .lengthOverflow s)
  /-- PAD_ALLOC raises RESOURCE_EXHAUSTED (R242). -/
  | exhausts (op : i = .padAlloc) (eq : t = faultEntry .resourceExhausted s)

theorem ReadyAt.completes {len : U64} {i j : Instr} {s t : State} (h : ReadyAt len j t) : InvocationAnswer i s t :=
  .completes (by simp [h.busy]) h.engineInv

section
variable {s t : State} {len : U64}

theorem exec_padTerm_of_readyAt (at_s : ReadyAt len .padTerm s) (h : exec .padTerm s = .next t) :
    InvocationAnswer .padTerm s t := by
  obtain ⟨busy, code, -, blk, hlen⟩ := at_s
  by_cases accepted : len.toNat ≤ s.cfg.maxInputBytes.toNat
  · rw [exec_padTerm_of_accepted hlen accepted] at h
    cases h
    exact ReadyAt.completes (j := .padAlign) ⟨busy, code, rfl, blk, ⟨hlen, accepted⟩, rfl⟩
  · rw [exec_padTerm_of_overflow hlen (by omega)] at h
    cases h
    exact .overflows rfl rfl

theorem exec_padAlign_of_readyAt (at_s : ReadyAt len .padAlign s) (h : exec .padAlign s = .next t) :
    ReadyAt len .padAlloc t := by
  obtain ⟨busy, code, -, blk, accepted, hplen⟩ := at_s
  rw [exec_padAlign_of_plen hplen] at h
  cases h
  exact ⟨busy, code, rfl, blk, accepted, rfl⟩

theorem exec_padAlloc_of_readyAt (at_s : ReadyAt len .padAlloc s) (h : exec .padAlloc s = .next t) :
    InvocationAnswer .padAlloc s t := by
  obtain ⟨busy, code, -, blk, accepted, hplen⟩ := at_s
  by_cases fits : blockCount len.toNat ≤ s.cfg.maxBlocks
  · rw [exec_padAlloc_of_le accepted.1 fits] at h
    cases h
    refine ReadyAt.completes (j := .padPack) ⟨busy, code, rfl, blk, accepted, hplen, rfl, _, rfl, ?_⟩
    refine ⟨List.length_replicate, fun b hb => ?_⟩
    rw [List.eq_of_mem_replicate hb]
    exact holdsBelow_freshBlock
  · rw [exec_padAlloc_of_exhausted accepted.1 (by omega)] at h
    cases h
    exact .exhausts rfl rfl

theorem exec_padPack_of_readyAt (at_s : ReadyAt len .padPack s) (h : exec .padPack s = .next t) :
    ReadyAt len .padLen t := by
  obtain ⟨busy, code, -, blk, accepted, hplen, array⟩ := at_s
  obtain ⟨bs, hbs, count⟩ := array.exists_blocks
  have aligned := toNat_alignedLength_succ accepted.lt
  have room := streamEndsBeforeLengthField len accepted.lt
  obtain ⟨bs', hpack, length, words⟩ := packWords_spec s.input len.toNat ((alignedLength (len + 1)).toNat / 4) 0 bs
    (by omega)
  rw [exec_padPack_of_packWords accepted.1 hplen hbs hpack] at h
  cases h
  refine ⟨busy, code, rfl, blk, accepted, array.of_blocks hbs rfl rfl length fun b i hi held => ?_⟩
  rw [words b i (by omega)]
  split
  · rfl
  · exact held

theorem exec_padLen_of_readyAt (at_s : ReadyAt len .padLen s) (h : exec .padLen s = .next t) :
    ReadyAt len .loadIv t := by
  obtain ⟨busy, code, -, blk, accepted, array⟩ := at_s
  obtain ⟨bs, hbs, count⟩ := array.exists_blocks
  obtain ⟨bs', hwrite, length, words⟩ :=
    writeLength_spec (bitLength len) (blockCount len.toNat) bs (one_le_blockCount _) count.ge
  rw [exec_padLen_of_writeLength accepted.1 array.1 hbs hwrite] at h
  cases h
  refine ⟨busy, code, rfl, blk, accepted, array.of_blocks hbs rfl rfl length fun b i _ held => ?_⟩
  rw [words b i]
  split
  · rfl
  · split
    · rfl
    · exact held

theorem exec_loadIv_of_readyAt (at_s : ReadyAt len .loadIv s) (h : exec .loadIv s = .next t) :
    ReadyAt len (.sched 16) t := by
  obtain ⟨busy, code, -, -, accepted, array⟩ := at_s
  cases h
  exact ⟨busy, code, rfl, rfl, accepted, array, allHold_someWords8 romIV, le_rfl,
    arrayAllocated.blockReady_of_lt (b := 0) array rfl (one_le_blockCount _)⟩

theorem exec_sched_of_readyAt {n : BitVec 6} (at_s : ReadyAt len (.sched n) s) (h : exec (.sched n) s = .next t) :
    ∃ j, ReadyAt len j t := by
  obtain ⟨busy, code, -, blk, accepted, array, digest, hn, b, bs, cur, hblk, hbs, hcur, held⟩ := at_s
  obtain ⟨x2, h2⟩ := held.get (i := n.toNat - 2) (by omega)
  obtain ⟨x7, h7⟩ := held.get (i := n.toNat - 7) (by omega)
  obtain ⟨x15, h15⟩ := held.get (i := n.toNat - 15) (by omega)
  obtain ⟨x16, h16⟩ := held.get (i := n.toNat - 16) (by omega)
  rw [exec_sched_of_operands hn hblk hbs hcur h2 h7 h15 h16] at h
  have blocks : t.blocks = some (bs.set b (blockSet cur n.toNat (schedWord x2 x7 x15 x16))) := by cases h; rfl
  have array' : arrayAllocated t len := by
    refine array.of_blocks hbs blocks (by cases h; rfl) List.length_set fun c i _ hold => ?_
    rw [wordAt_set_blockSet bs b _ _ cur hcur]
    split
    · rfl
    · exact hold
  have ready' : blockReady t (n.toNat + 1) := by
    obtain ⟨inArray, -⟩ := List.getElem?_eq_some_iff.mp hcur
    exact ⟨b, _, _, by cases h; exact hblk, blocks, List.getElem?_set_self inArray, held.succ n.isLt _⟩
  by_cases more : n.toNat < 63
  · have succ : (n + 1).toNat = n.toNat + 1 := by bv_omega
    rw [if_pos more] at h
    cases h
    exact ⟨.sched (n + 1), busy, code, rfl, blk, accepted, array', digest, by omega, succ ▸ ready'⟩
  · have last : n.toNat + 1 = 64 := by omega
    rw [if_neg more] at h
    cases h
    exact ⟨.initWork, busy, code, rfl, blk, accepted, array', digest, last ▸ ready'⟩

theorem exec_initWork_of_readyAt (at_s : ReadyAt len .initWork s) (h : exec .initWork s = .next t) :
    ReadyAt len (.round 0) t := by
  obtain ⟨busy, code, -, blk, accepted, array, digest, ready⟩ := at_s
  obtain ⟨d, hd⟩ := exists_words_of_allHold digest
  rw [exec_initWork_of_words hd] at h
  cases h
  exact ⟨busy, code, rfl, blk, accepted, array, digest, allHold_someWords8 d, ready⟩

theorem exec_round_of_readyAt {n : BitVec 6} (at_s : ReadyAt len (.round n) s) (h : exec (.round n) s = .next t) :
    ∃ j, ReadyAt len j t := by
  obtain ⟨busy, code, -, blk, accepted, array, digest, working, ready⟩ := at_s
  have ⟨b, bs, cur, hblk, hbs, hcur, held⟩ := ready
  obtain ⟨w, hw⟩ := held.get n.isLt
  obtain ⟨v, hv⟩ := exists_words_of_allHold working
  rw [exec_round_of_operands hblk hbs hcur hw hv] at h
  by_cases more : n.toNat < 63
  · rw [if_pos more] at h
    cases h
    exact ⟨.round (n + 1), busy, code, rfl, blk, accepted, array, digest, allHold_someWords8 _, ready⟩
  · rw [if_neg more] at h
    cases h
    exact ⟨.addState, busy, code, rfl, blk, accepted, array, digest, allHold_someWords8 _, ready⟩

theorem exec_addState_of_readyAt (at_s : ReadyAt len .addState s) (h : exec .addState s = .next t) :
    ∃ j, ReadyAt len j t := by
  obtain ⟨busy, code, -, blk, accepted, array, digest, working, ready⟩ := at_s
  obtain ⟨b, hblk, hb⟩ := array.exists_blk_lt ready
  obtain ⟨x, hx⟩ := exists_words_of_allHold digest
  obtain ⟨y, hy⟩ := exists_words_of_allHold working
  rw [exec_addState_of_operands hx hy hblk array.1 hb] at h
  by_cases more : b + 1 < blockCount len.toNat
  · simp only [if_pos more] at h
    cases h
    exact ⟨.sched 16, busy, code, rfl, rfl, accepted, array, allHold_someWords8 _, le_rfl,
      arrayAllocated.blockReady_of_lt (b := b + 1) array rfl more⟩
  · simp only [if_neg more] at h
    cases h
    exact ⟨.finish, busy, code, rfl, rfl, accepted, allHold_someWords8 _⟩

theorem exec_finish_of_readyAt (at_s : ReadyAt len .finish s) (h : exec .finish s = .next t) :
    t.phase = .done ∧ EngineInv t := by
  obtain ⟨-, code, -, -, accepted, digest⟩ := at_s
  cases h
  refine ⟨rfl, (codeHolds_iff_of_ne_fault (by simp)).mpr code, (phaseHolds_iff_of_done rfl).mpr ⟨?_, digest, ?_⟩⟩
  · exact Option.isSome_of_eq_some accepted.1
  · exact ⟨rfl, rfl, rfl, rfl, rfl, rfl⟩

/-- Each micro-operation of an invocation completes and leaves its successor what it needs, or raises one of the two
faults of oversize inputs. -/
theorem exec_of_readyAt {i : Instr} (at_s : ReadyAt len i s) (h : exec i s = .next t) : InvocationAnswer i s t := by
  cases i with
  | padTerm => exact exec_padTerm_of_readyAt at_s h
  | padAlign => exact (exec_padAlign_of_readyAt at_s h).completes
  | padAlloc => exact exec_padAlloc_of_readyAt at_s h
  | padPack => exact (exec_padPack_of_readyAt at_s h).completes
  | padLen => exact (exec_padLen_of_readyAt at_s h).completes
  | loadIv => exact (exec_loadIv_of_readyAt at_s h).completes
  | sched n =>
    obtain ⟨j, at_t⟩ := exec_sched_of_readyAt at_s h
    exact at_t.completes
  | initWork => exact (exec_initWork_of_readyAt at_s h).completes
  | round n =>
    obtain ⟨j, at_t⟩ := exec_round_of_readyAt at_s h
    exact at_t.completes
  | addState =>
    obtain ⟨j, at_t⟩ := exec_addState_of_readyAt at_s h
    exact at_t.completes
  | finish =>
    obtain ⟨done, inv⟩ := exec_finish_of_readyAt at_s h
    exact .completes (by simp [done]) inv
  | hash | readStatus | readDigest | reset => cases at_s.ready

/-- In an invocation the engine's turn performs the micro-operation it is ready for. -/
theorem engineTurn_of_readyAt {i : Instr} (at_s : ReadyAt len i s) (h : engineTurn s = .next t) :
    InvocationAnswer i s t := by
  rw [engineTurn_of_decodeMop at_s.busy at_s.mop (decodeMop_encode_of_readyFor at_s.ready)] at h
  exact exec_of_readyAt at_s h

theorem InvocationAnswer.engineInv {i : Instr} (at_s : ReadyAt len i s) (h : InvocationAnswer i s t) : EngineInv t := by
  have hlen : s.inlen.isSome := Option.isSome_of_eq_some (inlen_of_readyFor at_s.ready)
  cases h with
  | completes _ inv => exact inv
  | overflows _ eq => rw [eq]; exact engineInv_faultEntry (.inl rfl) hlen
  | exhausts _ eq => rw [eq]; exact engineInv_faultEntry (.inr rfl) hlen

end

end Sys2Proof.Machine
end

section
/-!
PROOFS. Every step keeps the invariant, and only two faults are reached (spec/70_reset_and_hazards.md R278).
-/

namespace Sys2Proof.Machine

theorem EngineInv.engineTurn {s t : State} (inv : EngineInv s) (h : engineTurn s = .next t) : EngineInv t := by
  by_cases busy : s.phase = .busy
  · obtain ⟨len, i, at_s⟩ := inv.readyAt busy
    exact (engineTurn_of_readyAt at_s h).engineInv at_s
  · cases (engineTurn_of_not_busy busy).symm.trans h
    exact inv

/-- An accepted HASH is ready for PAD_TERM (spec/44_host_and_sequencer.md R201). -/
theorem EngineInv.exec_hash {s t : State} {len : U64} (inv : EngineInv s) (h : exec (.hash len) s = .next t) :
    EngineInv t := by
  by_cases refuses : s.phase = .busy ∨ s.phase = .fault
  · cases (exec_hash_of_refused refuses).symm.trans h
    exact inv.of_sameEngine (sameEngine_refl s) rfl
  · obtain ⟨notBusy, notFault⟩ := not_or.mp refuses
    have accepts : s.phase = .idle ∨ s.phase = .done := by
      cases hp : s.phase <;> simp [hp] at notBusy notFault ⊢
    cases (exec_hash_of_accepted accepts).symm.trans h
    exact ReadyAt.engineInv (len := len) (i := .padTerm)
      ⟨rfl, (codeHolds_iff_of_ne_fault notFault).mp inv.code, rfl, rfl, rfl⟩

theorem EngineInv.exec_hostCommand {i : Instr} {s t : State} (inv : EngineInv s) (hi : isMicroOp i = false)
    (h : exec i s = .next t) : EngineInv t := by
  rcases exec_hostCommand_sameEngine hi h with same | ⟨len, rfl⟩ | rfl
  · refine inv.of_sameEngine same ?_
    rcases exec_hostCommand_next hi h with ⟨r, rfl⟩ | effect
    · rfl
    · exact effect.cfg
  · exact inv.exec_hash h
  · cases h
    exact (engineInv_resetEngine s).of_sameEngine (sameEngine_refl _) rfl

theorem EngineInv.hostTurn {a : HostAction} {s t : State} (inv : EngineInv s) (h : hostTurn a s = .next t) :
    EngineInv t := by
  rcases hostTurn_next h with ⟨r, rfl⟩ | ⟨w, operand, i, -, hd, he⟩ | ⟨k, v, -, -, rfl⟩
  · exact inv.of_sameEngine (sameEngine_refl s) rfl
  · exact inv.exec_hostCommand (isMicroOp_of_decodeHostCommand hd) he
  · exact inv.of_sameEngine (sameEngine_refl s) rfl

theorem EngineInv.afterTurn {s : State} (inv : EngineInv s) : EngineInv (afterTurn s) :=
  inv.of_sameEngine (sameEngine_refl s) rfl

theorem EngineInv.step {s t : State} (inv : EngineInv s) (h : step s = .next t) : EngineInv t := by
  rcases step_cases s with ⟨-, hs⟩ | ⟨a, -, -, hs⟩
  · exact inv.afterTurn.engineTurn (hs.symm.trans h)
  · exact inv.afterTurn.hostTurn (hs.symm.trans h)

/-- A step keeps the canonical form of the input space (spec/20_memory.md R51). -/
theorem step_memWf {s t : State} (h : step s = .next t) (wf : memWf s.input = true) : memWf t.input = true := by
  cases step_next h with
  | waits _ _ eq | faults _ _ _ _ eq | refuses _ _ _ _ eq => rw [eq]; exact wf
  | performs _ _ effect | accepts _ _ _ effect => rw [effect.input]; exact wf
  | writes k v _ _ _ eq => rw [eq]; exact memWf_memWrite s.input k.toNat v k.isLt wf

theorem State.Inv.engineInv {s : State} (h : s.Inv) : EngineInv s := ⟨h.codeOk, h.phaseOk⟩

theorem State.Inv.step {s t : State} (inv : s.Inv) (h : step s = .next t) : t.Inv where
  cfgOk := by rw [step_cfg h]; exact inv.cfgOk
  memOk := step_memWf h inv.memOk
  codeOk := (inv.engineInv.step h).code
  phaseOk := (inv.engineInv.step h).phase

/-- Settles O48: a state with the invariant answers, and each kind of turn keeps each part of the invariant. -/
theorem everyStepKeepsTheInvariant : Obligations.EveryStepKeepsTheInvariant := by
  intro s inv
  obtain ⟨t, h⟩ := step_answers_of_inv inv
  exact ⟨t, h, inv.step h⟩

/-- Only an engine turn in BUSY enters FAULT (spec/60_exceptions.md R240, R250). -/
theorem engineNext_of_step_enters_fault {s t : State} (before : s.phase ≠ .fault) (h : step s = .next t)
    (after : t.phase = .fault) : engineNext s := by
  cases step_next h with
  | waits turn | faults turn | performs turn => exact turn
  | accepts _ _ _ effect => exact absurd (effect.phase after) before
  | refuses _ _ _ _ eq | writes _ _ _ _ _ eq => rw [eq] at after; exact absurd after before

/-- Settles O49: a micro-operation of an invocation that does not complete is PAD_TERM or PAD_ALLOC. -/
theorem onlyTwoFaultsAreReached : Obligations.OnlyTwoFaultsAreReached := by
  intro s t inv busy h after
  have turn := engineNext_of_step_enters_fault (by simp [busy]) h after
  rw [step_engine s turn] at h
  obtain ⟨len, i, at_s⟩ := inv.engineInv.afterTurn.readyAt busy
  have hmop : s.mop = some (encode i) := at_s.mop
  cases engineTurn_of_readyAt at_s h with
  | completes ok => exact absurd after ok
  | overflows op eq => subst op eq; exact .inl ⟨rfl, hmop⟩
  | exhausts op eq => subst op eq; exact .inr ⟨rfl, hmop⟩

end Sys2Proof.Machine
end
